-- ==== Sys2Proof/Word.lean ====
section
/-! DEFINITION. The word types of HMIX32: the 32-bit register word (R20, R10) and the 8-bit byte of the input (R51). -/

namespace Sys2Proof

/-- A 32-bit unsigned register value (R8, R10, R20). -/
abbrev Word := BitVec 32

/-- The addressable unit of the input and the width of an operation code (R51, R81). -/
abbrev Byte := BitVec 8

end Sys2Proof
end

