-- ==== Sys2Proof/Config.lean ====
section
/-! DEFINITION. What an implementation of HMIX32 fixes and the spec leaves open (R9): constants without a body. The other
two parameters of R9, `MIX_TABLE` and `FINAL_TABLE`, have a default in the spec: they are the configuration `roundTables` of
Sys2Proof/Machine/Tables.lean, where a repair can reach it. -/

namespace Sys2Proof

/-- `FASTPATH` (R9, R58, D12): whether the block uses aligned word reads when `BASE mod 4 = 0`. OPEN in the spec, so it
has no body here: nothing can be proved that holds for one value only (notes/assumptions/13.md). -/
opaque Config.fastpath : Bool

/-- `XADDR` (R9, R32, D10): the width in bits of the host register `BASE`. OPEN in the spec, so it has no body here
(notes/assumptions/14.md). -/
opaque Config.xaddr : Nat

end Sys2Proof
end

