-- ==== Sys2Proof/Syntax.lean ====
section
/-! DEFINITION. The 29 primitive operations of HMIX32 (R82), their mnemonics (R86), and the pseudo-operations (R87). -/

namespace Sys2Proof

/-- The operations, one constructor per row of spec/opcode_table.json, in the table's order (R82). No operation has an
operand in its code (R83), so no constructor has an argument. -/
inductive Instr where
  | init
  | absorb
  | mix1
  | mix2
  | mix3
  | mix4
  | mix5
  | mix6
  | advance
  | tail1
  | tail2
  | tail3
  | tail4
  | tail5
  | tail6
  | tail7
  | tail8
  | tail9
  | tail10
  | tail11
  | tailwa
  | tailwb
  | fin1
  | fin2
  | fin3
  | fin4
  | fin5
  | fin6
  | result
  deriving DecidableEq, Repr

/-- Every operation, in the order of R82. -/
def Instr.all : List Instr :=
  [.init, .absorb, .mix1, .mix2, .mix3, .mix4, .mix5, .mix6, .advance] ++
  [.tail1, .tail2, .tail3, .tail4, .tail5, .tail6, .tail7, .tail8, .tail9, .tail10, .tail11, .tailwa, .tailwb] ++
  [.fin1, .fin2, .fin3, .fin4, .fin5, .fin6, .result]

/-- The five families of R82 (R81 gives the last two one group nibble). -/
inductive Family where
  | initialise
  | bulk
  | tail
  | final
  | result
  deriving DecidableEq, Repr

/-- The family column of R82. -/
def Instr.family : Instr → Family
  | .init => .initialise
  | .absorb | .mix1 | .mix2 | .mix3 | .mix4 | .mix5 | .mix6 | .advance => .bulk
  | .tail1 | .tail2 | .tail3 | .tail4 | .tail5 | .tail6 | .tail7 | .tail8 | .tail9 | .tail10 | .tail11 => .tail
  | .tailwa | .tailwb => .tail
  | .fin1 | .fin2 | .fin3 | .fin4 | .fin5 | .fin6 => .final
  | .result => .result

/-- The mnemonics of R82, as lists of characters so that the assembler of Sys2Proof/Machine/Asm.lean evaluates. -/
def Instr.mnemonic : Instr → List Char
  | .init => ['I', 'N', 'I', 'T']
  | .absorb => ['A', 'B', 'S', 'O', 'R', 'B']
  | .mix1 => ['M', 'I', 'X', '1']
  | .mix2 => ['M', 'I', 'X', '2']
  | .mix3 => ['M', 'I', 'X', '3']
  | .mix4 => ['M', 'I', 'X', '4']
  | .mix5 => ['M', 'I', 'X', '5']
  | .mix6 => ['M', 'I', 'X', '6']
  | .advance => ['A', 'D', 'V', 'A', 'N', 'C', 'E']
  | .tail1 => ['T', 'A', 'I', 'L', '1']
  | .tail2 => ['T', 'A', 'I', 'L', '2']
  | .tail3 => ['T', 'A', 'I', 'L', '3']
  | .tail4 => ['T', 'A', 'I', 'L', '4']
  | .tail5 => ['T', 'A', 'I', 'L', '5']
  | .tail6 => ['T', 'A', 'I', 'L', '6']
  | .tail7 => ['T', 'A', 'I', 'L', '7']
  | .tail8 => ['T', 'A', 'I', 'L', '8']
  | .tail9 => ['T', 'A', 'I', 'L', '9']
  | .tail10 => ['T', 'A', 'I', 'L', '1', '0']
  | .tail11 => ['T', 'A', 'I', 'L', '1', '1']
  | .tailwa => ['T', 'A', 'I', 'L', 'W', 'A']
  | .tailwb => ['T', 'A', 'I', 'L', 'W', 'B']
  | .fin1 => ['F', 'I', 'N', '1']
  | .fin2 => ['F', 'I', 'N', '2']
  | .fin3 => ['F', 'I', 'N', '3']
  | .fin4 => ['F', 'I', 'N', '4']
  | .fin5 => ['F', 'I', 'N', '5']
  | .fin6 => ['F', 'I', 'N', '6']
  | .result => ['R', 'E', 'S', 'U', 'L', 'T']

/-- The pseudo-operations of R87: names for fixed sequences of operations, with no codes of their own. `hash` carries the
length that its expansion depends on; its fast-path twin (R88) has no name in R87. -/
inductive Pseudo where
  | mix
  | block
  | tail (n : Nat)
  | tailf (n : Nat)
  | final
  | hash (len : Nat)
  deriving DecidableEq, Repr

/-- `MIX` of R87. -/
def mixRound : List Instr := [.mix1, .mix2, .mix3, .mix4, .mix5, .mix6]

/-- `BLOCK` of R87: one pass of the bulk loop (R110). -/
def blockPass : List Instr := .absorb :: (mixRound ++ [.advance])

/-- `FINAL` of R87. -/
def finalRound : List Instr := [.fin1, .fin2, .fin3, .fin4, .fin5, .fin6]

/-- The eleven byte operations in the cascade's order, highest first (R130). -/
def byteCascade : List Instr :=
  [.tail11, .tail10, .tail9, .tail8, .tail7, .tail6, .tail5, .tail4, .tail3, .tail2, .tail1]

/-- `TAIL n` of R87: the last `n` operations of the cascade, in descending order (R148). -/
def portableTail (n : Nat) : List Instr := byteCascade.drop (11 - n)

/-- `TAILF n` of R87, row by row from R149. -/
def fastTail : Nat → List Instr
  | 11 => [.tail11, .tail10, .tail9, .tailwb, .tailwa]
  | 10 => [.tail10, .tail9, .tailwb, .tailwa]
  | 9 => [.tail9, .tailwb, .tailwa]
  | 8 => [.tailwb, .tailwa]
  | 7 => [.tail7, .tail6, .tail5, .tailwa]
  | 6 => [.tail6, .tail5, .tailwa]
  | 5 => [.tail5, .tailwa]
  | 4 => [.tailwa]
  | 3 => [.tail3, .tail2, .tail1]
  | 2 => [.tail2, .tail1]
  | 1 => [.tail1]
  | _ => []

/-- The tail cascade for `n` remaining bytes on the path named by `fast` (R148, R149). -/
def tailStream (n : Nat) (fast : Bool) : List Instr := if fast then fastTail n else portableTail n

/-- The stream of R183, `HASH` of R87 on the portable path: INIT, the block passes, the tail cascade, the final round, RESULT. -/
def hashStream (len : Nat) (fast : Bool) : List Instr :=
  .init :: ((List.replicate (len / 12) blockPass).flatten ++ tailStream (len % 12) fast ++ finalRound ++ [.result])

/-- The expansion column of R87. -/
def Pseudo.expand : Pseudo → List Instr
  | .mix => mixRound
  | .block => blockPass
  | .tail n => portableTail n
  | .tailf n => fastTail n
  | .final => finalRound
  | .hash len => hashStream len false

end Sys2Proof
end

