-- ==== Sys2Proof/WellFormed.lean ====
section
/-! DEFINITION. Well-formedness: of one operation, of a pseudo-operation, and of a stream of operations (R88). -/

namespace Sys2Proof

/-- An operation is well formed when it is one of the 29 of R82. No operation has an operand (R83), so every term of
`Instr` passes. -/
def Instr.wf (i : Instr) : Bool := Instr.all.contains i

/-- The operand ranges of R87 (`TAIL n` and `TAILF n` for `n` up to 11) and of `LEN` (R31). -/
def Pseudo.wf : Pseudo → Bool
  | .tail n => decide (n ≤ 11)
  | .tailf n => decide (n ≤ 11)
  | .hash len => decide (len < 2 ^ 32)
  | .mix | .block | .final => true

/-- R88: a stream is well formed only if it is the stream of R183 for some `LEN` and some value of the fast-path
condition. The number of ABSORB operations fixes `floor(LEN / 12)`, so only `LEN mod 12` and the path are searched. -/
def streamWf (ops : List Instr) : Bool :=
  (List.range 12).any fun t =>
    [false, true].any fun fast =>
      decide (12 * ops.count .absorb + t < 2 ^ 32) && ops == hashStream (12 * ops.count .absorb + t) fast

end Sys2Proof
end

