-- ==== Sys2Proof/Decode.lean ====
section
/-! DEFINITION. The operation decoder and encoder (R81, R82, R85): one 8-bit word, format OP8, fields `grp` and `idx`. -/

namespace Sys2Proof

/-- Why a byte list spells no operation: its first byte is one of the 227 reserved codes (R85), or there is no byte. -/
inductive DecodeError where
  | reserved (code : Byte)
  | empty
  deriving DecidableEq, Repr

/-- Field `grp` of format OP8: bits 7:4 (R81). -/
def codeGroup (code : Byte) : BitVec 4 := code.extractLsb' 4 4

/-- Field `idx` of format OP8: bits 3:0 (R81). -/
def codeIndex (code : Byte) : BitVec 4 := code.extractLsb' 0 4

/-- The code table of R82 read by its two fields; every code not listed is reserved (R85). -/
def decodeCode (code : Byte) : Option Instr :=
  match (codeGroup code).toNat, (codeIndex code).toNat with
  | 0, 0 => some .init
  | 1, 0 => some .absorb
  | 1, 1 => some .mix1
  | 1, 2 => some .mix2
  | 1, 3 => some .mix3
  | 1, 4 => some .mix4
  | 1, 5 => some .mix5
  | 1, 6 => some .mix6
  | 1, 15 => some .advance
  | 2, 1 => some .tail1
  | 2, 2 => some .tail2
  | 2, 3 => some .tail3
  | 2, 4 => some .tail4
  | 2, 5 => some .tail5
  | 2, 6 => some .tail6
  | 2, 7 => some .tail7
  | 2, 8 => some .tail8
  | 2, 9 => some .tail9
  | 2, 10 => some .tail10
  | 2, 11 => some .tail11
  | 2, 14 => some .tailwa
  | 2, 15 => some .tailwb
  | 3, 1 => some .fin1
  | 3, 2 => some .fin2
  | 3, 3 => some .fin3
  | 3, 4 => some .fin4
  | 3, 5 => some .fin5
  | 3, 6 => some .fin6
  | 3, 15 => some .result
  | _, _ => none

/-- The decoder over a byte stream: the first byte's operation and the bytes after it. Every operation is one byte long
(R81). -/
def decode : List Byte → Except DecodeError (Instr × List Byte)
  | [] => .error .empty
  | code :: rest =>
    match decodeCode code with
    | some i => .ok (i, rest)
    | none => .error (.reserved code)

/-- The code column of R82. -/
def encodeCode : Instr → Byte
  | .init => 0x00#8
  | .absorb => 0x10#8
  | .mix1 => 0x11#8
  | .mix2 => 0x12#8
  | .mix3 => 0x13#8
  | .mix4 => 0x14#8
  | .mix5 => 0x15#8
  | .mix6 => 0x16#8
  | .advance => 0x1F#8
  | .tail1 => 0x21#8
  | .tail2 => 0x22#8
  | .tail3 => 0x23#8
  | .tail4 => 0x24#8
  | .tail5 => 0x25#8
  | .tail6 => 0x26#8
  | .tail7 => 0x27#8
  | .tail8 => 0x28#8
  | .tail9 => 0x29#8
  | .tail10 => 0x2A#8
  | .tail11 => 0x2B#8
  | .tailwa => 0x2E#8
  | .tailwb => 0x2F#8
  | .fin1 => 0x31#8
  | .fin2 => 0x32#8
  | .fin3 => 0x33#8
  | .fin4 => 0x34#8
  | .fin5 => 0x35#8
  | .fin6 => 0x36#8
  | .result => 0x3F#8

/-- The words of an operation: its one code byte (R81). -/
def encode (i : Instr) : List Byte := [encodeCode i]

/-- The codes of a stream, for example a program of spec/95_test_vectors.md section 4. -/
def encodeAll (ops : List Instr) : List Byte := ops.flatMap encode

/-- The operations that a list of codes spells, one for each code. None where one of the codes is reserved (R85). -/
def decodeAll : List Byte → Option (List Instr)
  | [] => some []
  | code :: rest => (decodeCode code).bind fun i => (decodeAll rest).map (i :: ·)

/-- The code byte of a table word of `nbits` bits with value `w`; bits above `nbits` are 0. Every code is one 8-bit word
(R81), so a longer word is no code, whatever its low byte. -/
def tableCode (nbits w : Nat) : Option Byte :=
  if nbits ≤ 8 then some (BitVec.ofNat 8 (w % 2 ^ nbits)) else none

/-- The operation the decoder reads from a table word of `nbits` bits with value `w`. -/
def decodeTableWord (nbits w : Nat) : Option Instr :=
  match tableCode nbits w with
  | some code =>
    match decode [code] with
    | .ok (i, _) => some i
    | .error _ => none
  | none => none

end Sys2Proof
end

