-- ==== Sys2Proof/Machine/State.lean ====
section
/-! DEFINITION. The state of HMIX32 (spec/10_state.md), the reasons a step can stop, and the state after reset (R40). -/

namespace Sys2Proof.Machine

/-- The three accumulators `a`, `b`, `c` (R20), distinct storage (R21). -/
structure Acc where
  a : Word
  b : Word
  c : Word
  deriving DecidableEq, Repr

/-- The index of an accumulator: `x[0]` is `a`, `x[1]` is `b`, `x[2]` is `c` (R11, R20). -/
inductive Reg where
  | a
  | b
  | c
  deriving DecidableEq, Repr

/-- The values of the sequencer register `upc` (R27): `IDLE`, `DONE`, or one of the 29 operations. -/
inductive Upc where
  | idle
  | done
  | op (i : Instr)
  deriving DecidableEq, Repr

/-- The input byte sequence (R50): offsets `0 .. extent - 1` are readable. `cells` lists, by strictly rising offset, the
readable bytes that are not zero, so that equal inputs are equal data (notes/assumptions/4.md). -/
structure Memory where
  extent : Nat
  cells : List Host.Cell
  deriving DecidableEq, Repr

/-- The five host registers (R30). -/
inductive HostReg where
  | len
  | base
  | ctrl
  | status
  | digest
  deriving DecidableEq, Repr

/-- What the host can ask of the block (R221), each handled in one step: a register write or read, putting the input
bytes in place (R243 step 1), reset (R240), and handing the block an operation code to step (R85, R88). The value of a
write is the unsigned number the host sends; each register keeps the bits it has (notes/assumptions/9.md). -/
inductive HostRequest where
  | write (reg : HostReg) (value : Nat)
  | read (reg : HostReg)
  | supply (bytes : List Byte)
  | reset
  | issue (code : Byte)
  deriving DecidableEq, Repr

/-- Everything the spec gives the block, the input it reads, and the host's pending requests. -/
structure State where
  /-- `a`, `b`, `c` (R20). -/
  acc : Acc
  /-- `pos`: the offset of the next byte the bulk loop has not consumed (R24). -/
  pos : Word
  /-- `rem`: the number of bytes the bulk loop has not consumed (R25). -/
  rem : Word
  /-- Whether `a`, `b`, `c`, `pos`, `rem` hold values (R40, R41): clear after reset, set by INIT, which writes all five
  (R100). -/
  seeded : Bool
  /-- `upc`: the next operation, or a resting value (R27). -/
  upc : Upc
  /-- `LEN`, 32 bits (R31). -/
  len : Word
  /-- Whether `LEN` holds a value: clear after reset, set by the host's write (R40, R41). -/
  lenHeld : Bool
  /-- `BASE`, `XADDR` bits (R32), held as its unsigned value, which is below `2 ^ XADDR`. -/
  base : Nat
  /-- Whether `BASE` holds a value: clear after reset, set by the host's write (R40, R41). -/
  baseHeld : Bool
  /-- `DIGEST` (R35). Holding no value is the spec's own state: after reset, and from a START to that run's RESULT. -/
  digest : Option Word
  /-- The input of the run: `data` and `EXTENT` (R50). No operation writes it (R52). -/
  mem : Memory
  /-- THE MODEL'S OWN: the host's requests not yet served, oldest first (notes/assumptions/5.md). -/
  requests : List HostRequest
  /-- THE MODEL'S OWN: the value the host's last register read returned (notes/assumptions/5.md). -/
  reply : Option Nat
  deriving DecidableEq, Repr

/-- Why a step is stuck (R14, R186). The block has no trap and raises nothing (R210): these are states in which no step
is enabled. -/
inductive Fault where
  /-- Raised by ABSORB, TAIL1 to TAIL11, TAILWA and TAILWB when a byte they need is not readable (R61, R62): the
  operation has no step and no value is returned. The state before the step is the stuck state (R214). SAFE: the model
  stops where a device would read something the spec does not say. -/
  | unreadableInput
  /-- Raised by the step when `upc` is `IDLE` or `DONE` and no host request is pending (R180, R227). SAFE: nothing is
  enabled. -/
  | noStep
  deriving DecidableEq, Repr

/-- Why the model gives a request no meaning (R14, R186). -/
inductive Refusal where
  /-- For an arm of exec with no meaning yet. SAFE. No arm raises it now. -/
  | notModelled (mnemonic : String)
  /-- `reserved_opcode`: a code that is none of the 29 handed to the block (R85). Raised by the host's issue request.
  SAFE. -/
  | reservedOpcode
  /-- `not_a_run`: a stream of operations that is no run (R88), and a single code that is not the operation the sequencer
  is at (notes/assumptions/17.md). Raised by a stream and by the host's issue request. SAFE. -/
  | notARun
  /-- `read_of_unwritten_state`: a read of a register that holds no value (R41). Raised by INIT for `LEN`, by the
  sequencer for `BASE`, by the other operations for the working registers, and by the host's reads of `LEN` and `BASE`.
  SAFE. -/
  | readOfUnwrittenState
  /-- `digest_not_ready`: the host's read of `DIGEST` while `STATUS.DONE = 0` (R35). SAFE. -/
  | digestNotReady
  /-- `write_while_busy`: the host's write of `LEN`, `BASE` or `CTRL` while `STATUS.BUSY = 1` (R36). SAFE. -/
  | writeWhileBusy
  /-- `reserved_ctrl_bits`: the host's write of `CTRL` with any of bits 31:1 set (R33). SAFE. -/
  | reservedCtrlBits
  /-- The host's write of `STATUS` or `DIGEST`, which are read only (R30) and for which the spec gives a write no effect.
  SAFE (notes/assumptions/8.md). -/
  | writeToReadOnly
  /-- New input bytes put in place during a run, of which the spec says nothing (R66). SAFE (notes/assumptions/10.md). -/
  | inputFixedDuringRun
  deriving DecidableEq, Repr

/-- The outcome of an operation, of a host request, or of a step (R186). -/
abbrev Outcome := Host.Outcome State Fault Refusal

/-- The state after reset (R40, R240): `upc` is `IDLE`, no register holds a value, and no input is in place. The zeros
stored beside the clear marks are never read (notes/assumptions/1.md). -/
def State.reset : State where
  acc := ⟨0#32, 0#32, 0#32⟩
  pos := 0#32
  rem := 0#32
  seeded := false
  upc := .idle
  len := 0#32
  lenHeld := false
  base := 0
  baseHeld := false
  digest := none
  mem := ⟨0, []⟩
  requests := []
  reply := none

end Sys2Proof.Machine
end

