-- ==== Sys2Proof/Machine/Flags.lean ====
section
/-! DEFINITION. HMIX32 has no flags, condition codes or predicates (R28). The only status bits are those of the host
register `STATUS`, a function of `upc` (R34). -/

namespace Sys2Proof.Machine

/-- `STATUS.BUSY`: `upc` is one of the 29 operations (R34). -/
def Upc.busy : Upc → Bool
  | .op _ => true
  | .idle | .done => false

/-- `STATUS.DONE`: `upc` is `DONE` (R34). -/
def Upc.isDone : Upc → Bool
  | .done => true
  | .idle | .op _ => false

/-- The word `STATUS`: bit 0 `BUSY`, bit 1 `DONE`, bits 31:2 zero (R30, R34). -/
def statusWord (u : Upc) : Word :=
  (if u.busy then 1#32 else 0#32) ||| (if u.isDone then 2#32 else 0#32)

end Sys2Proof.Machine
end

