-- ==== Sys2Proof/Machine/Operands.lean ====
section
/-! DEFINITION. The arithmetic primitives of R12 that core Lean does not have, the byte and word forms of an operand
(R13, R56, R84), and reading and writing an accumulator by index (R11, R20). Addition, subtraction and exclusive or are
those of BitVec 32, which wrap modulo 2^32 (R250). -/

namespace Sys2Proof.Machine

/-- `rotl(x, r)` of R12: left rotation by a fixed count. -/
def rotl (x : Word) (r : Nat) : Word := (x <<< r) ||| (x >>> (32 - r))

/-- `zext_32(v)` of R12. -/
def zext32 (v : Byte) : Word := v.setWidth 32

/-- The addend of a tail byte: zero-extended to 32 bits first, then shifted (R130, D26). -/
def placeByte (v : Byte) (shift : Nat) : Word := zext32 v <<< shift

/-- The little-endian composition of four bytes, byte 0 least significant (R13, R55, R56). -/
def composeWord (b0 b1 b2 b3 : Byte) : Word :=
  placeByte b0 0 ||| placeByte b1 8 ||| placeByte b2 16 ||| placeByte b3 24

/-- The value of the accumulator a rule names by index (R11). -/
def Acc.get (x : Acc) : Reg → Word
  | .a => x.a
  | .b => x.b
  | .c => x.c

/-- `x[r] <- v` (R11); the other two accumulators keep their values (R21). -/
def Acc.set (x : Acc) (r : Reg) (v : Word) : Acc :=
  match r with
  | .a => { x with a := v }
  | .b => { x with b := v }
  | .c => { x with c := v }

/-- `x[r] <- x[r] + v`, modulo 2^32. -/
def Acc.add (x : Acc) (r : Reg) (v : Word) : Acc := x.set r (x.get r + v)

/-- The accumulator of TAIL`k` for byte index `i = k - 1`, by the formula of R84. -/
def tailReg (i : Nat) : Reg :=
  match i / 4 with
  | 0 => .a
  | 1 => .b
  | _ => .c

/-- The shift of TAIL`k` for byte index `i = k - 1`, by the formula of R84: `c` starts one byte higher. -/
def tailShift (i : Nat) : Nat :=
  match tailReg i with
  | .a | .b => 8 * (i % 4)
  | .c => 8 * (i % 4) + 8

end Sys2Proof.Machine
end

