-- ==== Sys2Proof/Machine/Tables.lean ====
section
/-! DEFINITION. The constants (R8, R101), the two round tables, which are parameters of the model (R9, R113, R161), and the
steps of each round over tables given as an argument. The register
roles are the spec's decisions D5 and D6, taken from general knowledge and not from the source
(notes/assumptions/11.md, notes/assumptions/12.md). -/

namespace Sys2Proof.Machine

/-- The seed constant `K`, computed from the document's two literals (R101). -/
def seedK : Word := 0x9e3779b9#32 + 3923095#32

/-- The size of a block in bytes (R8). -/
def blockSize : Word := 12#32

/-- A row of `MIX_TABLE` (R9): `T <- T - S; T <- T ^ rotl(R, r); D <- D + V` (R112). -/
structure MixRow where
  target : Reg
  subSrc : Reg
  rotSrc : Reg
  amount : Nat
  addDst : Reg
  addSrc : Reg
  deriving DecidableEq, Repr

/-- A row of `FINAL_TABLE` (R9): `T <- T ^ X; T <- T - rotl(R, r)` (R160). -/
structure FinalRow where
  target : Reg
  xorSrc : Reg
  rotSrc : Reg
  amount : Nat
  deriving DecidableEq, Repr

/-- The two parameters of R9 that are tables. `FINAL_TABLE` is a list of any length, so a seventh row can be given (D25). -/
structure RoundTables where
  mix : Vector MixRow 6
  final : List FinalRow
  deriving DecidableEq, Repr

/-- The default of `MIX_TABLE` (R9, R113). -/
def defaultMixTable : Vector MixRow 6 :=
  #v[ ⟨.a, .c, .c, 4, .c, .b⟩,
      ⟨.b, .a, .a, 6, .a, .c⟩,
      ⟨.c, .b, .b, 8, .b, .a⟩,
      ⟨.a, .c, .c, 16, .c, .b⟩,
      ⟨.b, .a, .a, 19, .a, .c⟩,
      ⟨.c, .b, .b, 4, .b, .a⟩ ]

/-- The default of `FINAL_TABLE` (R9, R161). -/
def defaultFinalTable : List FinalRow :=
  [ ⟨.c, .b, .b, 14⟩,
    ⟨.a, .c, .c, 11⟩,
    ⟨.b, .a, .a, 25⟩,
    ⟨.c, .b, .b, 16⟩,
    ⟨.a, .c, .c, 4⟩,
    ⟨.b, .a, .a, 14⟩ ]

/-- The configuration of the block (R9): `MIX_TABLE` and `FINAL_TABLE`, here at their defaults. Everything that uses a table
takes it as an argument, and the meanings of the operations give this one. It stands here and not in
Sys2Proof/Config.lean so that a repair can correct it (R113, U7, U8). -/
def roundTables : RoundTables := ⟨defaultMixTable, defaultFinalTable⟩

/-- One mix step (R112): three sub-updates in order, each seeing the ones before it, so that the rotation reads its source
before the addition changes it (R113, R245). -/
def mixStep (r : MixRow) (x : Acc) : Acc :=
  let x₁ := x.set r.target (x.get r.target - x.get r.subSrc)
  let x₂ := x₁.set r.target (x₁.get r.target ^^^ rotl (x₁.get r.rotSrc) r.amount)
  x₂.set r.addDst (x₂.get r.addDst + x₂.get r.addSrc)

/-- One final step (R160): two sub-updates in order, both on the target (R172). -/
def finalStep (r : FinalRow) (x : Acc) : Acc :=
  let x₁ := x.set r.target (x.get r.target ^^^ x.get r.xorSrc)
  x₁.set r.target (x₁.get r.target - rotl (x₁.get r.rotSrc) r.amount)

/-- The mix round over a table: its six rows in order (R112). -/
def applyMix (t : RoundTables) (x : Acc) : Acc := t.mix.toList.foldl (fun y r => mixStep r y) x

/-- The rows of `FINAL_TABLE` that FIN`k + 1` executes (R83): row `k + 1`, and with FIN6 also every row after the sixth, since
the spec has a seventh row stand after FIN6 and gives it no operation of its own. No row, no change
(notes/assumptions/12.md). -/
def finalRows (t : RoundTables) (k : Fin 6) : List FinalRow :=
  if k = 5 then t.final.drop 5 else (t.final.drop k).take 1

/-- Rows of a final table, executed in order (R160). -/
def finalSteps (rows : List FinalRow) (x : Acc) : Acc := rows.foldl (fun y r => finalStep r y) x

/-- The final round over a table: all its rows in order (R160). -/
def applyFinal (t : RoundTables) (x : Acc) : Acc := finalSteps t.final x

end Sys2Proof.Machine
end

