-- ==== Sys2Proof/Machine/Ops.lean ====
section
/-! DEFINITION. The named operations over memory and registers: reading the input (R13, R56, R61, R62), building it, and
the state updates the operations are made of. There is no exception to take and none to return from (R210, R214, R215):
the two stops an operation has are `unreadableInput` (R62) and `readOfUnwrittenState` (R41). -/

namespace Sys2Proof.Machine

/-- The byte listed at an offset; an unlisted offset reads as zero (notes/assumptions/4.md). -/
def lookupCell (off : Nat) : List Host.Cell → Byte
  | [] => 0#8
  | (a, v) :: rest => if a = off then v else lookupCell off rest

/-- `data[off]` where `off` is below `EXTENT` (R50); there is no value beyond it (R62). -/
def Memory.byteAt (m : Memory) (off : Nat) : Option Byte :=
  if off < m.extent then some (lookupCell off m.cells) else none

/-- Offsets rise strictly from `lo`, stay below `hi`, and no listed byte is zero. -/
def cellsWf (lo hi : Nat) : List Host.Cell → Bool
  | [] => true
  | (a, v) :: rest => decide (lo ≤ a) && decide (a < hi) && (v != 0#8) && cellsWf (a + 1) hi rest

/-- The canonical form of the input's cells. -/
def Memory.wf (m : Memory) : Bool := cellsWf 0 m.extent m.cells

/-- The cells of a byte list whose first byte is at offset `off`, zero bytes left out. -/
def cellsFrom (off : Nat) : List Byte → List Host.Cell
  | [] => []
  | v :: rest => if v = 0#8 then cellsFrom (off + 1) rest else (off, v) :: cellsFrom (off + 1) rest

/-- The input that consists of the given bytes, all of them readable (R50, R243 step 1). -/
def Memory.ofBytes (bytes : List Byte) : Memory := ⟨bytes.length, cellsFrom 0 bytes⟩

/-- The admission of `MemRead(off, n)` (R61). Offsets are natural numbers (R13), so no sum wraps. -/
def admitted (s : State) (off n : Nat) : Bool :=
  decide (off + n ≤ s.len.toNat) && decide (off + n ≤ s.mem.extent)

/-- `MemRead(off, 1)` (R13): none where the read is not admitted. -/
def readByte (s : State) (off : Nat) : Option Byte :=
  if admitted s off 1 then s.mem.byteAt off else none

/-- `MemRead(off, 4)`, that is `le32(off)` (R13, R56): the little-endian composition of four bytes on either read path
(R60); none where the read is not admitted. -/
def readWord (s : State) (off : Nat) : Option Word :=
  match readByte s off, readByte s (off + 1), readByte s (off + 2), readByte s (off + 3) with
  | some b0, some b1, some b2, some b3 => some (composeWord b0 b1 b2 b3)
  | _, _, _, _ => none

/-- `upc <- u` (R14). -/
def State.setUpc (s : State) (u : Upc) : State := { s with upc := u }

/-- Writes the three accumulators. -/
def State.setAcc (s : State) (x : Acc) : State := { s with acc := x }

/-- Writes the read position and the remaining length (R24, R25). -/
def State.setCursor (s : State) (pos rem : Word) : State := { s with pos := pos, rem := rem }

/-- Writes all five working registers, which then hold values (R41, R100). -/
def State.seed (s : State) (x : Acc) (pos rem : Word) : State :=
  { s with acc := x, pos := pos, rem := rem, seeded := true }

/-- `DIGEST` takes a value or holds none (R33, R35). -/
def State.setDigest (s : State) (d : Option Word) : State := { s with digest := d }

/-- `LEN <- v` (R31). -/
def State.setLen (s : State) (v : Word) : State := { s with len := v, lenHeld := true }

/-- `BASE <- v` (R32). -/
def State.setBase (s : State) (v : Nat) : State := { s with base := v, baseHeld := true }

/-- Puts another input in place (R243 step 1). -/
def State.setMem (s : State) (m : Memory) : State := { s with mem := m }

/-- Replaces the host's pending requests. -/
def State.setRequests (s : State) (rs : List HostRequest) : State := { s with requests := rs }

/-- Hands the host the value of a register read. -/
def State.setReply (s : State) (v : Nat) : State := { s with reply := some v }

/-- Goes on only where the working registers hold values: a read of one that holds none is refused (R41,
and U3 of spec/93_implementation_defined.md). -/
def onWorking (s : State) (k : Outcome) : Outcome :=
  if s.seeded then k else .refused .readOfUnwrittenState

/-- Goes on with the value of an input read; without one the operation has no step (R62). -/
def onInput {α : Type} (v : Option α) (k : α → Outcome) : Outcome :=
  match v with
  | some x => k x
  | none => .fault .unreadableInput

end Sys2Proof.Machine
end

