-- ==== Sys2Proof/Machine/Sequencer.lean ====
section
/-! DEFINITION. The successor table of the sequencer (R181): the whole of the block's control flow. -/

namespace Sys2Proof.Machine

/-- `fast = FASTPATH and (BASE mod 4 = 0)` (R58, R181). None where it needs `BASE` and `BASE` holds no value; with
`FASTPATH` false `BASE` is never read (R41). -/
def fastPath (s : State) : Option Bool :=
  if s.baseHeld then some (decide (s.base % 4 = 0) && Config.fastpath)
  else if Config.fastpath then none else some false

/-- A row pair of R181 that depends on `fast`. -/
def byPath (s : State) (fastOp portableOp : Instr) : Option Upc :=
  (fastPath s).map fun fast => .op (if fast then fastOp else portableOp)

/-- The rows of R181 for INIT and ADVANCE: the loop test `rem >= 12` and the dispatch on the remaining length. `fast` is
looked at only in the two rows whose condition names it (notes/assumptions/15.md). -/
def loopTarget (s : State) : Option Upc :=
  match s.rem.toNat with
  | 0 => some (.op .fin1)
  | 1 => some (.op .tail1)
  | 2 => some (.op .tail2)
  | 3 => some (.op .tail3)
  | 4 => byPath s .tailwa .tail4
  | 5 => some (.op .tail5)
  | 6 => some (.op .tail6)
  | 7 => some (.op .tail7)
  | 8 => byPath s .tailwb .tail8
  | 9 => some (.op .tail9)
  | 10 => some (.op .tail10)
  | 11 => some (.op .tail11)
  | _ => some (.op .absorb)

/-- The next `upc` after an operation has executed (R181), from the state after the operation's own writes. None where
the sequencer would read a `BASE` that holds no value (R41). -/
def successor (i : Instr) (s : State) : Option Upc :=
  match i with
  | .init => loopTarget s
  | .absorb => some (.op .mix1)
  | .mix1 => some (.op .mix2)
  | .mix2 => some (.op .mix3)
  | .mix3 => some (.op .mix4)
  | .mix4 => some (.op .mix5)
  | .mix5 => some (.op .mix6)
  | .mix6 => some (.op .advance)
  | .advance => loopTarget s
  | .tail11 => some (.op .tail10)
  | .tail10 => some (.op .tail9)
  | .tail9 => byPath s .tailwb .tail8
  | .tail8 => some (.op .tail7)
  | .tail7 => some (.op .tail6)
  | .tail6 => some (.op .tail5)
  | .tail5 => byPath s .tailwa .tail4
  | .tail4 => some (.op .tail3)
  | .tail3 => some (.op .tail2)
  | .tail2 => some (.op .tail1)
  | .tail1 => some (.op .fin1)
  | .tailwb => some (.op .tailwa)
  | .tailwa => some (.op .fin1)
  | .fin1 => some (.op .fin2)
  | .fin2 => some (.op .fin3)
  | .fin3 => some (.op .fin4)
  | .fin4 => some (.op .fin5)
  | .fin5 => some (.op .fin6)
  | .fin6 => some (.op .result)
  | .result => some .done

/-- Ends an operation: sets `upc` by R181 in the state its writes have left (R180). Where that needs a `BASE` that holds
no value, the read is refused (R41). -/
def retire (i : Instr) (s : State) : Outcome :=
  match successor i s with
  | some u => .next (s.setUpc u)
  | none => .refused .readOfUnwrittenState

end Sys2Proof.Machine
end

