-- ==== Sys2Proof/Machine/Bulk.lean ====
section
/-! DEFINITION. The bulk family: ABSORB, MIX1 to MIX6, ADVANCE (spec/41_bulk_mix.md). -/

namespace Sys2Proof.Machine

/-- The three words of the block at the read position (R56, R111): none where any of the twelve bytes is not readable. -/
def readBlock (s : State) : Option (Word × Word × Word) :=
  match readWord s s.pos.toNat, readWord s (s.pos.toNat + 4), readWord s (s.pos.toNat + 8) with
  | some w0, some w1, some w2 => some (w0, w1, w2)
  | _, _, _ => none

/-- `a <- a + w0; b <- b + w1; c <- c + w2` (R111). -/
def absorbWords (w : Word × Word × Word) (x : Acc) : Acc := ⟨x.a + w.1, x.b + w.2.1, x.c + w.2.2⟩

/-- ABSORB (R111). -/
def execAbsorb (s : State) : Outcome :=
  onWorking s (onInput (readBlock s) fun w => retire .absorb (s.setAcc (absorbWords w s.acc)))

/-- The shared form of MIX1 to MIX6: row `k + 1` of `MIX_TABLE` (R83, R113). -/
def mixOp (t : RoundTables) (i : Instr) (k : Fin 6) (s : State) : Outcome :=
  onWorking s (retire i (s.setAcc (mixStep t.mix[k] s.acc)))

/-- MIX1 (R114). -/
def execMix1 (s : State) : Outcome := mixOp roundTables .mix1 0 s

/-- MIX2 (R115). -/
def execMix2 (s : State) : Outcome := mixOp roundTables .mix2 1 s

/-- MIX3 (R116). -/
def execMix3 (s : State) : Outcome := mixOp roundTables .mix3 2 s

/-- MIX4 (R117). -/
def execMix4 (s : State) : Outcome := mixOp roundTables .mix4 3 s

/-- MIX5 (R118). -/
def execMix5 (s : State) : Outcome := mixOp roundTables .mix5 4 s

/-- MIX6 (R119). -/
def execMix6 (s : State) : Outcome := mixOp roundTables .mix6 5 s

/-- ADVANCE (R120). -/
def execAdvance (s : State) : Outcome :=
  onWorking s (retire .advance (s.setCursor (s.pos + blockSize) (s.rem - blockSize)))

end Sys2Proof.Machine
end

