-- ==== Sys2Proof/Machine/Final.lean ====
section
/-! DEFINITION. The final family and the result: FIN1 to FIN6, RESULT (spec/43_final_result.md). -/

namespace Sys2Proof.Machine

/-- The shared form of FIN1 to FIN6: its rows of `FINAL_TABLE` (R83, R161). -/
def finalOp (t : RoundTables) (i : Instr) (k : Fin 6) (s : State) : Outcome :=
  onWorking s (retire i (s.setAcc (finalSteps (finalRows t k) s.acc)))

/-- FIN1 (R162). -/
def execFin1 (s : State) : Outcome := finalOp roundTables .fin1 0 s

/-- FIN2 (R163). -/
def execFin2 (s : State) : Outcome := finalOp roundTables .fin2 1 s

/-- FIN3 (R164). -/
def execFin3 (s : State) : Outcome := finalOp roundTables .fin3 2 s

/-- FIN4 (R165). -/
def execFin4 (s : State) : Outcome := finalOp roundTables .fin4 3 s

/-- FIN5 (R166). -/
def execFin5 (s : State) : Outcome := finalOp roundTables .fin5 4 s

/-- FIN6 (R167). -/
def execFin6 (s : State) : Outcome := finalOp roundTables .fin6 5 s

/-- RESULT (R168): `DIGEST <- c`, and `upc` becomes `DONE`. -/
def execResult (s : State) : Outcome :=
  onWorking s (retire .result (s.setDigest (some s.acc.c)))

end Sys2Proof.Machine
end

