-- ==== Sys2Proof/Machine/Init.lean ====
section
/-! DEFINITION. The initialisation family: INIT (spec/40_init.md). -/

namespace Sys2Proof.Machine

/-- INIT (R100): the accumulators take `K + LEN`, the read position 0, the remaining length `LEN`. A `LEN` that holds no
value is refused (R100, R41). -/
def execInit (s : State) : Outcome :=
  if s.lenHeld then
    retire .init (s.seed ⟨seedK + s.len, seedK + s.len, seedK + s.len⟩ 0#32 s.len)
  else .refused .readOfUnwrittenState

end Sys2Proof.Machine
end

