-- ==== Sys2Proof/Machine/Tail.lean ====
section
/-! DEFINITION. The tail family: TAIL1 to TAIL11, TAILWA, TAILWB (spec/42_tail.md). The table of R130 is normative: each
operation below names its own accumulator, byte index and shift. -/

namespace Sys2Proof.Machine

/-- The shared form of the byte operations (R130): add `byte[index]`, shifted, to one accumulator. The index counts from
the read position (R130, D21). -/
def addTailByte (i : Instr) (r : Reg) (index shift : Nat) (s : State) : Outcome :=
  onWorking s (onInput (readByte s (s.pos.toNat + index)) fun v =>
    retire i (s.setAcc (s.acc.add r (placeByte v shift))))

/-- The shared form of the word operations (R143, R144): add the little-endian word at `pos + index`. -/
def addTailWord (i : Instr) (r : Reg) (index : Nat) (s : State) : Outcome :=
  onWorking s (onInput (readWord s (s.pos.toNat + index)) fun w =>
    retire i (s.setAcc (s.acc.add r w)))

/-- TAIL11 (R131). -/
def execTail11 (s : State) : Outcome := addTailByte .tail11 .c 10 24 s

/-- TAIL10 (R132). -/
def execTail10 (s : State) : Outcome := addTailByte .tail10 .c 9 16 s

/-- TAIL9 (R133). -/
def execTail9 (s : State) : Outcome := addTailByte .tail9 .c 8 8 s

/-- TAIL8 (R134). -/
def execTail8 (s : State) : Outcome := addTailByte .tail8 .b 7 24 s

/-- TAIL7 (R135). -/
def execTail7 (s : State) : Outcome := addTailByte .tail7 .b 6 16 s

/-- TAIL6 (R136). -/
def execTail6 (s : State) : Outcome := addTailByte .tail6 .b 5 8 s

/-- TAIL5 (R137). -/
def execTail5 (s : State) : Outcome := addTailByte .tail5 .b 4 0 s

/-- TAIL4 (R138). -/
def execTail4 (s : State) : Outcome := addTailByte .tail4 .a 3 24 s

/-- TAIL3 (R139). -/
def execTail3 (s : State) : Outcome := addTailByte .tail3 .a 2 16 s

/-- TAIL2 (R140). -/
def execTail2 (s : State) : Outcome := addTailByte .tail2 .a 1 8 s

/-- TAIL1 (R141). -/
def execTail1 (s : State) : Outcome := addTailByte .tail1 .a 0 0 s

/-- TAILWB (R143). -/
def execTailwb (s : State) : Outcome := addTailWord .tailwb .b 4 s

/-- TAILWA (R144). -/
def execTailwa (s : State) : Outcome := addTailWord .tailwa .a 0 s

end Sys2Proof.Machine
end

