-- ==== Sys2Proof/Machine/Dispatch.lean ====
section
/-! DEFINITION. The dispatch: one arm per operation, each one direct call of its meaning. -/

namespace Sys2Proof.Machine

def exec (i : Instr) (s : State) : Host.Outcome State Fault Refusal :=
  match i with
  | .init => Sys2Proof.Machine.execInit s
  | .absorb => Sys2Proof.Machine.execAbsorb s
  | .mix1 => Sys2Proof.Machine.execMix1 s
  | .mix2 => Sys2Proof.Machine.execMix2 s
  | .mix3 => Sys2Proof.Machine.execMix3 s
  | .mix4 => Sys2Proof.Machine.execMix4 s
  | .mix5 => Sys2Proof.Machine.execMix5 s
  | .mix6 => Sys2Proof.Machine.execMix6 s
  | .advance => Sys2Proof.Machine.execAdvance s
  | .tail1 => Sys2Proof.Machine.execTail1 s
  | .tail2 => Sys2Proof.Machine.execTail2 s
  | .tail3 => Sys2Proof.Machine.execTail3 s
  | .tail4 => Sys2Proof.Machine.execTail4 s
  | .tail5 => Sys2Proof.Machine.execTail5 s
  | .tail6 => Sys2Proof.Machine.execTail6 s
  | .tail7 => Sys2Proof.Machine.execTail7 s
  | .tail8 => Sys2Proof.Machine.execTail8 s
  | .tail9 => Sys2Proof.Machine.execTail9 s
  | .tail10 => Sys2Proof.Machine.execTail10 s
  | .tail11 => Sys2Proof.Machine.execTail11 s
  | .tailwa => Sys2Proof.Machine.execTailwa s
  | .tailwb => Sys2Proof.Machine.execTailwb s
  | .fin1 => Sys2Proof.Machine.execFin1 s
  | .fin2 => Sys2Proof.Machine.execFin2 s
  | .fin3 => Sys2Proof.Machine.execFin3 s
  | .fin4 => Sys2Proof.Machine.execFin4 s
  | .fin5 => Sys2Proof.Machine.execFin5 s
  | .fin6 => Sys2Proof.Machine.execFin6 s
  | .result => Sys2Proof.Machine.execResult s

end Sys2Proof.Machine
end

