-- ==== Sys2Proof/Machine/HostPort.lean ====
section
/-! DEFINITION. The host's side of the block (R30 to R36, R221, R240, R243): register writes and reads, the input put in
place, reset. -/

namespace Sys2Proof.Machine

/-- The register numbers of R30. -/
def hostRegNumber : HostReg → Nat
  | .len => 0
  | .base => 1
  | .ctrl => 2
  | .status => 3
  | .digest => 4

/-- The byte offsets of R30: four times the number. -/
def hostRegOffset (r : HostReg) : Nat := 4 * hostRegNumber r

/-- The register with a number; there are no others (R37). -/
def hostRegOfNumber : Nat → Option HostReg
  | 0 => some .len
  | 1 => some .base
  | 2 => some .ctrl
  | 3 => some .status
  | 4 => some .digest
  | _ => none

/-- The register at a byte offset. -/
def hostRegOfOffset (off : Nat) : Option HostReg :=
  if off % 4 = 0 then hostRegOfNumber (off / 4) else none

/-- Goes on only while `STATUS.BUSY = 0` (R36). -/
def whenResting (s : State) (k : Outcome) : Outcome :=
  if s.upc.busy then .refused .writeWhileBusy else k

/-- A write of `CTRL` at rest (R33): any of bits 31:1 set is refused, `START` begins a run, zero changes nothing. -/
def writeCtrl (v : Word) (s : State) : Outcome :=
  if v >>> 1 ≠ 0#32 then .refused .reservedCtrlBits
  else if v = 1#32 then .next ((s.setDigest none).setUpc (.op .init))
  else .next s

/-- The host's register writes (R30 to R33, R36). The busy check stands before the check of `CTRL`'s reserved bits
(notes/assumptions/7.md). -/
def hostWrite (r : HostReg) (value : Nat) (s : State) : Outcome :=
  match r with
  | .len => whenResting s (.next (s.setLen (BitVec.ofNat 32 value)))
  | .base => whenResting s (.next (s.setBase (value % 2 ^ Config.xaddr)))
  | .ctrl => whenResting s (writeCtrl (BitVec.ofNat 32 value) s)
  | .status => .refused .writeToReadOnly
  | .digest => .refused .writeToReadOnly

/-- The read of `DIGEST` (R35): refused while `STATUS.DONE = 0`. -/
def readDigest (s : State) : Outcome :=
  match s.upc.isDone, s.digest with
  | true, some d => .next (s.setReply d.toNat)
  | _, _ => .refused .digestNotReady

/-- The host's register reads (R30 to R36, R41). A read changes nothing of the block. -/
def hostRead (r : HostReg) (s : State) : Outcome :=
  match r with
  | .len => if s.lenHeld then .next (s.setReply s.len.toNat) else .refused .readOfUnwrittenState
  | .base => if s.baseHeld then .next (s.setReply s.base) else .refused .readOfUnwrittenState
  | .ctrl => .next (s.setReply 0)
  | .status => .next (s.setReply (statusWord s.upc).toNat)
  | .digest => readDigest s

/-- Putting the input bytes in place (R243 step 1), which must not happen during a run (R66, R247). -/
def supplyInput (bytes : List Byte) (s : State) : Outcome :=
  if s.upc.busy then .refused .inputFixedDuringRun else .next (s.setMem (Memory.ofBytes bytes))

/-- Reset (R240), allowed always: the block's registers are those of R40. The input and the host's pending requests are
not the block's and stay (notes/assumptions/19.md). -/
def resetBlock (s : State) : State := { State.reset with mem := s.mem, requests := s.requests }

end Sys2Proof.Machine
end

