-- ==== Sys2Proof/Machine/Issue.lean ====
section
/-! DEFINITION. What a step is made of: the sequencer's step (R180), an operation code handed to the block (R85, R88), the
service of a host request (R221), and how the host's check selects an operation (notes/assumptions/18.md). -/

namespace Sys2Proof.Machine

/-- A step of the one agent, the sequencer (R180): execute the operation `upc` names; at rest there is no step. -/
def sequencerStep (s : State) : Outcome :=
  match s.upc with
  | .op i => exec i s
  | .idle => .fault .noStep
  | .done => .fault .noStep

/-- An operation code handed to the block: a reserved one is refused (R85), and so is one that is not the operation the
sequencer is at: R88 speaks of streams, and this for a single code is the model's choice (notes/assumptions/17.md). -/
def issueCode (code : Byte) (s : State) : Outcome :=
  match decode [code] with
  | .error _ => .refused .reservedOpcode
  | .ok (i, _) => if s.upc = .op i then exec i s else .refused .notARun

/-- The service of one host request (R221). -/
def serve (r : HostRequest) (s : State) : Outcome :=
  match r with
  | .write reg value => hostWrite reg value s
  | .read reg => hostRead reg s
  | .supply bytes => supplyInput bytes s
  | .reset => .next (resetBlock s)
  | .issue code => issueCode code s

/-- One step: a pending host request is served first (notes/assumptions/5.md), else the sequencer takes its step. -/
def stepState (s : State) : Outcome :=
  match s.requests with
  | r :: rest => serve r (s.setRequests rest)
  | [] => sequencerStep s

/-- Codes handed to the block one after the other, to the end of the run: each must be the operation the sequencer is at,
and after the last the block must be at `DONE` (R185). The first stop met is the answer. -/
def issueAll : List Byte → State → Outcome
  | [], s => if s.upc = .done then .next s else .refused .notARun
  | code :: rest, s =>
    match issueCode code s with
    | .next t => issueAll rest t
    | .fault r => .fault r
    | .refused r => .refused r

/-- A stream of codes run through the block. A stream of operations that is not well formed is refused in every state,
before any of it runs (R88, U13 of spec/93_implementation_defined.md). The model's choices: a list with a reserved code is
no stream of operations and is refused as R85 says, and a well-formed stream that is not the one of the block's own `LEN`
and path answers the first stop it meets (notes/assumptions/25.md); a well-formed stream runs only in a block at INIT
(notes/assumptions/26.md). -/
def runStream (codes : List Byte) (s : State) : Outcome :=
  match decodeAll codes with
  | none => .refused .reservedOpcode
  | some ops => if streamWf ops then issueAll codes s else .refused .notARun

/-- The state in which the block is at operation `i` with what that operation may need in place: the registers it reads
hold the values they have, `LEN` and `EXTENT` reach one block past the read position, and `rem` is what is left of `LEN`
(notes/assumptions/18.md). -/
def selectOperation (i : Instr) (s : State) : State :=
  let need := s.pos.toNat + 12
  let len := if s.len.toNat < need then BitVec.ofNat 32 need else s.len
  { s with
    upc := .op i, requests := [], seeded := true, lenHeld := true, baseHeld := true,
    len := len, rem := len - s.pos, mem := ⟨max s.mem.extent need, s.mem.cells⟩ }

/-- The state in which a code is what the next step runs: selected where it spells an operation, and handed to the block,
which refuses it, where it spells none. -/
def placeCode (code : Option Instr) (raw : Byte) (s : State) : State :=
  match code with
  | some i => selectOperation i s
  | none => s.setRequests [.issue raw]

end Sys2Proof.Machine
end

