-- ==== Sys2Proof/Machine/Step.lean ====
section
/-! DEFINITION. One step of the machine, and the state that the host's check of the opcode table starts from. -/

namespace Sys2Proof.Machine

/-- One step (R180, R186). -/
def step (s : State) : Host.Outcome State Fault Refusal := stepState s

/-- `s` with the operation of a table word as the one the next step runs. The block fetches nothing from memory (R69): its
sequencer register is what selects an operation. A word that spells no operation is handed to the block as a code, which
the next step refuses; a word longer than a code (R81) is handed over as the reserved code 0xFF and not as its low byte.
All of this is the model's choice (notes/assumptions/18.md). -/
def State.withFetchWord (s : State) (nbits w : Nat) : State :=
  placeCode (decodeTableWord nbits w) ((tableCode nbits w).getD 0xFF#8) s

end Sys2Proof.Machine
end

