-- ==== Sys2Proof/Laws/Operands.lean ====
section
/-! SUPPORT. The arithmetic of Sys2Proof/Machine/Operands.lean: accumulators by index, and the operand formula of R84
against the table of R130. -/

namespace Sys2Proof.Machine

@[simp] theorem Acc.get_a (x : Acc) : x.get .a = x.a := rfl
@[simp] theorem Acc.get_b (x : Acc) : x.get .b = x.b := rfl
@[simp] theorem Acc.get_c (x : Acc) : x.get .c = x.c := rfl
@[simp] theorem Acc.set_a (x : Acc) (v : Word) : x.set .a v = ⟨v, x.b, x.c⟩ := rfl
@[simp] theorem Acc.set_b (x : Acc) (v : Word) : x.set .b v = ⟨x.a, v, x.c⟩ := rfl
@[simp] theorem Acc.set_c (x : Acc) (v : Word) : x.set .c v = ⟨x.a, x.b, v⟩ := rfl
@[simp] theorem Acc.add_a (x : Acc) (v : Word) : x.add .a v = ⟨x.a + v, x.b, x.c⟩ := rfl
@[simp] theorem Acc.add_b (x : Acc) (v : Word) : x.add .b v = ⟨x.a, x.b + v, x.c⟩ := rfl
@[simp] theorem Acc.add_c (x : Acc) (v : Word) : x.add .c v = ⟨x.a, x.b, x.c + v⟩ := rfl

theorem Acc.get_set_same (x : Acc) (r : Reg) (v : Word) : (x.set r v).get r = v := by cases r <;> rfl

theorem Acc.get_set_other (x : Acc) {r r' : Reg} (h : r' ≠ r) (v : Word) : (x.set r v).get r' = x.get r' := by
  cases r <;> cases r' <;> first | rfl | exact absurd rfl h

@[simp] theorem placeByte_zero (v : Byte) : placeByte v 0 = zext32 v := by simp [placeByte]

/-- The formula of R84 gives the register and the shift of each line of the table of R130. -/
theorem tail_operands_follow_formula :
    (List.range 11).map (fun i => (tailReg i, tailShift i)) =
      [(.a, 0), (.a, 8), (.a, 16), (.a, 24), (.b, 0), (.b, 8), (.b, 16), (.b, 24), (.c, 8), (.c, 16), (.c, 24)] := by
  decide

end Sys2Proof.Machine
end

