-- ==== Sys2Proof/Laws/Memory.lean ====
section
/-! SUPPORT. The canonical form of the input is kept by everything that builds one, and what a read can answer. -/

namespace Sys2Proof.Machine

theorem cellsWf_mono {lo lo' hi : Nat} (h : lo ≤ lo') : ∀ {cells}, cellsWf lo' hi cells = true → cellsWf lo hi cells = true
  | [], _ => rfl
  | (a, v) :: rest, hw => by
    simp only [cellsWf, Bool.and_eq_true, decide_eq_true_eq] at hw ⊢
    exact ⟨⟨⟨Nat.le_trans h hw.1.1.1, hw.1.1.2⟩, hw.1.2⟩, hw.2⟩

theorem cellsWf_hi_mono {hi hi' : Nat} (h : hi ≤ hi') : ∀ {lo cells}, cellsWf lo hi cells = true →
    cellsWf lo hi' cells = true
  | _, [], _ => rfl
  | _, (a, v) :: rest, hw => by
    simp only [cellsWf, Bool.and_eq_true, decide_eq_true_eq] at hw ⊢
    exact ⟨⟨⟨hw.1.1.1, Nat.lt_of_lt_of_le hw.1.1.2 h⟩, hw.1.2⟩, cellsWf_hi_mono h hw.2⟩

theorem cellsFrom_wf : ∀ (bytes : List Byte) (off hi : Nat), off + bytes.length ≤ hi →
    cellsWf off hi (cellsFrom off bytes) = true
  | [], _, _, _ => rfl
  | v :: rest, off, hi, h => by
    have ih := cellsFrom_wf rest (off + 1) hi (by simp only [List.length_cons] at h; omega)
    by_cases hv : v = 0#8
    · simp only [cellsFrom, hv, if_true]
      exact cellsWf_mono (Nat.le_succ off) ih
    · simp only [cellsFrom, hv, if_false, cellsWf, Bool.and_eq_true, decide_eq_true_eq, bne_iff_ne, ne_eq,
        not_false_eq_true, and_true]
      simp only [List.length_cons] at h
      exact ⟨⟨Nat.le_refl off, by omega⟩, ih⟩

/-- The input built from a byte list is in canonical form. -/
theorem Memory.ofBytes_wf (bytes : List Byte) : (Memory.ofBytes bytes).wf = true :=
  cellsFrom_wf bytes 0 bytes.length (by omega)

/-- Making more offsets readable keeps the canonical form. -/
theorem Memory.extend_wf {m : Memory} (h : m.wf = true) (n : Nat) : (Memory.mk (max m.extent n) m.cells).wf = true :=
  cellsWf_hi_mono (Nat.le_max_left m.extent n) h

/-- The input at reset is in canonical form. -/
theorem State.reset_mem_wf : State.reset.mem.wf = true := rfl

/-- Outside the readable extent there is no byte. -/
theorem Memory.byteAt_isSome (m : Memory) (off : Nat) : (m.byteAt off).isSome = decide (off < m.extent) := by
  unfold Memory.byteAt; split <;> simp_all

/-- An admitted byte read answers the input's byte. -/
theorem readByte_of_le {s : State} {off : Nat} (h₁ : off + 1 ≤ s.len.toNat) (h₂ : off + 1 ≤ s.mem.extent) :
    readByte s off = some (lookupCell off s.mem.cells) := by
  have h₃ : off < s.mem.extent := h₂
  simp [readByte, admitted, h₁, h₂, Memory.byteAt, h₃]

/-- A byte read that is not admitted answers nothing. -/
theorem readByte_eq_none {s : State} {off : Nat} (h : ¬(off + 1 ≤ s.len.toNat ∧ off + 1 ≤ s.mem.extent)) :
    readByte s off = none := by
  have h' : admitted s off 1 = false := by
    simp only [admitted, Bool.and_eq_false_iff, decide_eq_false_iff_not]; omega
  simp [readByte, h']

/-- Everything a byte read can answer. -/
theorem readByte_eq_some {s : State} {off : Nat} {v : Byte} (h : readByte s off = some v) :
    off + 1 ≤ s.len.toNat ∧ off + 1 ≤ s.mem.extent ∧ v = lookupCell off s.mem.cells := by
  by_cases hc : off + 1 ≤ s.len.toNat ∧ off + 1 ≤ s.mem.extent
  · rw [readByte_of_le hc.1 hc.2] at h
    exact ⟨hc.1, hc.2, (Option.some.inj h).symm⟩
  · rw [readByte_eq_none hc] at h; cases h

/-- An admitted word read answers the composition of its four bytes. -/
theorem readWord_of_le {s : State} {off : Nat} (h₁ : off + 4 ≤ s.len.toNat) (h₂ : off + 4 ≤ s.mem.extent) :
    readWord s off = some (composeWord (lookupCell off s.mem.cells) (lookupCell (off + 1) s.mem.cells)
      (lookupCell (off + 2) s.mem.cells) (lookupCell (off + 3) s.mem.cells)) := by
  simp only [readWord]
  rw [readByte_of_le (off := off) (by omega) (by omega), readByte_of_le (off := off + 1) (by omega) (by omega),
    readByte_of_le (off := off + 2) (by omega) (by omega), readByte_of_le (off := off + 3) (by omega) (by omega)]

/-- A word read whose last byte is not admitted answers nothing. -/
theorem readWord_eq_none {s : State} {off : Nat} (h : ¬(off + 4 ≤ s.len.toNat ∧ off + 4 ≤ s.mem.extent)) :
    readWord s off = none := by
  have h₃ : readByte s (off + 3) = none := readByte_eq_none (by omega)
  simp only [readWord]
  split
  · next h₄ => rw [h₃] at h₄; cases h₄
  · rfl

end Sys2Proof.Machine
end

