-- ==== Sys2Proof/Laws/State.lean ====
section
/-! SUPPORT. One lemma per field of State per update of Sys2Proof/Machine/Ops.lean, so that no later proof unfolds one. -/

namespace Sys2Proof.Machine

variable (s : State)

@[simp] theorem State.setUpc_acc (u : Upc) : (s.setUpc u).acc = s.acc := rfl
@[simp] theorem State.setUpc_pos (u : Upc) : (s.setUpc u).pos = s.pos := rfl
@[simp] theorem State.setUpc_rem (u : Upc) : (s.setUpc u).rem = s.rem := rfl
@[simp] theorem State.setUpc_seeded (u : Upc) : (s.setUpc u).seeded = s.seeded := rfl
@[simp] theorem State.setUpc_upc (u : Upc) : (s.setUpc u).upc = u := rfl
@[simp] theorem State.setUpc_len (u : Upc) : (s.setUpc u).len = s.len := rfl
@[simp] theorem State.setUpc_lenHeld (u : Upc) : (s.setUpc u).lenHeld = s.lenHeld := rfl
@[simp] theorem State.setUpc_base (u : Upc) : (s.setUpc u).base = s.base := rfl
@[simp] theorem State.setUpc_baseHeld (u : Upc) : (s.setUpc u).baseHeld = s.baseHeld := rfl
@[simp] theorem State.setUpc_digest (u : Upc) : (s.setUpc u).digest = s.digest := rfl
@[simp] theorem State.setUpc_mem (u : Upc) : (s.setUpc u).mem = s.mem := rfl
@[simp] theorem State.setUpc_requests (u : Upc) : (s.setUpc u).requests = s.requests := rfl
@[simp] theorem State.setUpc_reply (u : Upc) : (s.setUpc u).reply = s.reply := rfl

@[simp] theorem State.setAcc_acc (x : Acc) : (s.setAcc x).acc = x := rfl
@[simp] theorem State.setAcc_pos (x : Acc) : (s.setAcc x).pos = s.pos := rfl
@[simp] theorem State.setAcc_rem (x : Acc) : (s.setAcc x).rem = s.rem := rfl
@[simp] theorem State.setAcc_seeded (x : Acc) : (s.setAcc x).seeded = s.seeded := rfl
@[simp] theorem State.setAcc_upc (x : Acc) : (s.setAcc x).upc = s.upc := rfl
@[simp] theorem State.setAcc_len (x : Acc) : (s.setAcc x).len = s.len := rfl
@[simp] theorem State.setAcc_lenHeld (x : Acc) : (s.setAcc x).lenHeld = s.lenHeld := rfl
@[simp] theorem State.setAcc_base (x : Acc) : (s.setAcc x).base = s.base := rfl
@[simp] theorem State.setAcc_baseHeld (x : Acc) : (s.setAcc x).baseHeld = s.baseHeld := rfl
@[simp] theorem State.setAcc_digest (x : Acc) : (s.setAcc x).digest = s.digest := rfl
@[simp] theorem State.setAcc_mem (x : Acc) : (s.setAcc x).mem = s.mem := rfl
@[simp] theorem State.setAcc_requests (x : Acc) : (s.setAcc x).requests = s.requests := rfl
@[simp] theorem State.setAcc_reply (x : Acc) : (s.setAcc x).reply = s.reply := rfl

@[simp] theorem State.setCursor_acc (p r : Word) : (s.setCursor p r).acc = s.acc := rfl
@[simp] theorem State.setCursor_pos (p r : Word) : (s.setCursor p r).pos = p := rfl
@[simp] theorem State.setCursor_rem (p r : Word) : (s.setCursor p r).rem = r := rfl
@[simp] theorem State.setCursor_seeded (p r : Word) : (s.setCursor p r).seeded = s.seeded := rfl
@[simp] theorem State.setCursor_upc (p r : Word) : (s.setCursor p r).upc = s.upc := rfl
@[simp] theorem State.setCursor_len (p r : Word) : (s.setCursor p r).len = s.len := rfl
@[simp] theorem State.setCursor_lenHeld (p r : Word) : (s.setCursor p r).lenHeld = s.lenHeld := rfl
@[simp] theorem State.setCursor_base (p r : Word) : (s.setCursor p r).base = s.base := rfl
@[simp] theorem State.setCursor_baseHeld (p r : Word) : (s.setCursor p r).baseHeld = s.baseHeld := rfl
@[simp] theorem State.setCursor_digest (p r : Word) : (s.setCursor p r).digest = s.digest := rfl
@[simp] theorem State.setCursor_mem (p r : Word) : (s.setCursor p r).mem = s.mem := rfl
@[simp] theorem State.setCursor_requests (p r : Word) : (s.setCursor p r).requests = s.requests := rfl
@[simp] theorem State.setCursor_reply (p r : Word) : (s.setCursor p r).reply = s.reply := rfl

@[simp] theorem State.seed_acc (x : Acc) (p r : Word) : (s.seed x p r).acc = x := rfl
@[simp] theorem State.seed_pos (x : Acc) (p r : Word) : (s.seed x p r).pos = p := rfl
@[simp] theorem State.seed_rem (x : Acc) (p r : Word) : (s.seed x p r).rem = r := rfl
@[simp] theorem State.seed_seeded (x : Acc) (p r : Word) : (s.seed x p r).seeded = true := rfl
@[simp] theorem State.seed_upc (x : Acc) (p r : Word) : (s.seed x p r).upc = s.upc := rfl
@[simp] theorem State.seed_len (x : Acc) (p r : Word) : (s.seed x p r).len = s.len := rfl
@[simp] theorem State.seed_lenHeld (x : Acc) (p r : Word) : (s.seed x p r).lenHeld = s.lenHeld := rfl
@[simp] theorem State.seed_base (x : Acc) (p r : Word) : (s.seed x p r).base = s.base := rfl
@[simp] theorem State.seed_baseHeld (x : Acc) (p r : Word) : (s.seed x p r).baseHeld = s.baseHeld := rfl
@[simp] theorem State.seed_digest (x : Acc) (p r : Word) : (s.seed x p r).digest = s.digest := rfl
@[simp] theorem State.seed_mem (x : Acc) (p r : Word) : (s.seed x p r).mem = s.mem := rfl
@[simp] theorem State.seed_requests (x : Acc) (p r : Word) : (s.seed x p r).requests = s.requests := rfl
@[simp] theorem State.seed_reply (x : Acc) (p r : Word) : (s.seed x p r).reply = s.reply := rfl

@[simp] theorem State.setDigest_acc (d : Option Word) : (s.setDigest d).acc = s.acc := rfl
@[simp] theorem State.setDigest_pos (d : Option Word) : (s.setDigest d).pos = s.pos := rfl
@[simp] theorem State.setDigest_rem (d : Option Word) : (s.setDigest d).rem = s.rem := rfl
@[simp] theorem State.setDigest_seeded (d : Option Word) : (s.setDigest d).seeded = s.seeded := rfl
@[simp] theorem State.setDigest_upc (d : Option Word) : (s.setDigest d).upc = s.upc := rfl
@[simp] theorem State.setDigest_len (d : Option Word) : (s.setDigest d).len = s.len := rfl
@[simp] theorem State.setDigest_lenHeld (d : Option Word) : (s.setDigest d).lenHeld = s.lenHeld := rfl
@[simp] theorem State.setDigest_base (d : Option Word) : (s.setDigest d).base = s.base := rfl
@[simp] theorem State.setDigest_baseHeld (d : Option Word) : (s.setDigest d).baseHeld = s.baseHeld := rfl
@[simp] theorem State.setDigest_digest (d : Option Word) : (s.setDigest d).digest = d := rfl
@[simp] theorem State.setDigest_mem (d : Option Word) : (s.setDigest d).mem = s.mem := rfl
@[simp] theorem State.setDigest_requests (d : Option Word) : (s.setDigest d).requests = s.requests := rfl
@[simp] theorem State.setDigest_reply (d : Option Word) : (s.setDigest d).reply = s.reply := rfl

@[simp] theorem State.setLen_acc (v : Word) : (s.setLen v).acc = s.acc := rfl
@[simp] theorem State.setLen_pos (v : Word) : (s.setLen v).pos = s.pos := rfl
@[simp] theorem State.setLen_rem (v : Word) : (s.setLen v).rem = s.rem := rfl
@[simp] theorem State.setLen_seeded (v : Word) : (s.setLen v).seeded = s.seeded := rfl
@[simp] theorem State.setLen_upc (v : Word) : (s.setLen v).upc = s.upc := rfl
@[simp] theorem State.setLen_len (v : Word) : (s.setLen v).len = v := rfl
@[simp] theorem State.setLen_lenHeld (v : Word) : (s.setLen v).lenHeld = true := rfl
@[simp] theorem State.setLen_base (v : Word) : (s.setLen v).base = s.base := rfl
@[simp] theorem State.setLen_baseHeld (v : Word) : (s.setLen v).baseHeld = s.baseHeld := rfl
@[simp] theorem State.setLen_digest (v : Word) : (s.setLen v).digest = s.digest := rfl
@[simp] theorem State.setLen_mem (v : Word) : (s.setLen v).mem = s.mem := rfl
@[simp] theorem State.setLen_requests (v : Word) : (s.setLen v).requests = s.requests := rfl
@[simp] theorem State.setLen_reply (v : Word) : (s.setLen v).reply = s.reply := rfl

@[simp] theorem State.setBase_acc (v : Nat) : (s.setBase v).acc = s.acc := rfl
@[simp] theorem State.setBase_pos (v : Nat) : (s.setBase v).pos = s.pos := rfl
@[simp] theorem State.setBase_rem (v : Nat) : (s.setBase v).rem = s.rem := rfl
@[simp] theorem State.setBase_seeded (v : Nat) : (s.setBase v).seeded = s.seeded := rfl
@[simp] theorem State.setBase_upc (v : Nat) : (s.setBase v).upc = s.upc := rfl
@[simp] theorem State.setBase_len (v : Nat) : (s.setBase v).len = s.len := rfl
@[simp] theorem State.setBase_lenHeld (v : Nat) : (s.setBase v).lenHeld = s.lenHeld := rfl
@[simp] theorem State.setBase_base (v : Nat) : (s.setBase v).base = v := rfl
@[simp] theorem State.setBase_baseHeld (v : Nat) : (s.setBase v).baseHeld = true := rfl
@[simp] theorem State.setBase_digest (v : Nat) : (s.setBase v).digest = s.digest := rfl
@[simp] theorem State.setBase_mem (v : Nat) : (s.setBase v).mem = s.mem := rfl
@[simp] theorem State.setBase_requests (v : Nat) : (s.setBase v).requests = s.requests := rfl
@[simp] theorem State.setBase_reply (v : Nat) : (s.setBase v).reply = s.reply := rfl

@[simp] theorem State.setMem_acc (m : Memory) : (s.setMem m).acc = s.acc := rfl
@[simp] theorem State.setMem_pos (m : Memory) : (s.setMem m).pos = s.pos := rfl
@[simp] theorem State.setMem_rem (m : Memory) : (s.setMem m).rem = s.rem := rfl
@[simp] theorem State.setMem_seeded (m : Memory) : (s.setMem m).seeded = s.seeded := rfl
@[simp] theorem State.setMem_upc (m : Memory) : (s.setMem m).upc = s.upc := rfl
@[simp] theorem State.setMem_len (m : Memory) : (s.setMem m).len = s.len := rfl
@[simp] theorem State.setMem_lenHeld (m : Memory) : (s.setMem m).lenHeld = s.lenHeld := rfl
@[simp] theorem State.setMem_base (m : Memory) : (s.setMem m).base = s.base := rfl
@[simp] theorem State.setMem_baseHeld (m : Memory) : (s.setMem m).baseHeld = s.baseHeld := rfl
@[simp] theorem State.setMem_digest (m : Memory) : (s.setMem m).digest = s.digest := rfl
@[simp] theorem State.setMem_mem (m : Memory) : (s.setMem m).mem = m := rfl
@[simp] theorem State.setMem_requests (m : Memory) : (s.setMem m).requests = s.requests := rfl
@[simp] theorem State.setMem_reply (m : Memory) : (s.setMem m).reply = s.reply := rfl

@[simp] theorem State.setRequests_acc (rs : List HostRequest) : (s.setRequests rs).acc = s.acc := rfl
@[simp] theorem State.setRequests_pos (rs : List HostRequest) : (s.setRequests rs).pos = s.pos := rfl
@[simp] theorem State.setRequests_rem (rs : List HostRequest) : (s.setRequests rs).rem = s.rem := rfl
@[simp] theorem State.setRequests_seeded (rs : List HostRequest) : (s.setRequests rs).seeded = s.seeded := rfl
@[simp] theorem State.setRequests_upc (rs : List HostRequest) : (s.setRequests rs).upc = s.upc := rfl
@[simp] theorem State.setRequests_len (rs : List HostRequest) : (s.setRequests rs).len = s.len := rfl
@[simp] theorem State.setRequests_lenHeld (rs : List HostRequest) : (s.setRequests rs).lenHeld = s.lenHeld := rfl
@[simp] theorem State.setRequests_base (rs : List HostRequest) : (s.setRequests rs).base = s.base := rfl
@[simp] theorem State.setRequests_baseHeld (rs : List HostRequest) : (s.setRequests rs).baseHeld = s.baseHeld := rfl
@[simp] theorem State.setRequests_digest (rs : List HostRequest) : (s.setRequests rs).digest = s.digest := rfl
@[simp] theorem State.setRequests_mem (rs : List HostRequest) : (s.setRequests rs).mem = s.mem := rfl
@[simp] theorem State.setRequests_requests (rs : List HostRequest) : (s.setRequests rs).requests = rs := rfl
@[simp] theorem State.setRequests_reply (rs : List HostRequest) : (s.setRequests rs).reply = s.reply := rfl

@[simp] theorem State.setReply_acc (v : Nat) : (s.setReply v).acc = s.acc := rfl
@[simp] theorem State.setReply_pos (v : Nat) : (s.setReply v).pos = s.pos := rfl
@[simp] theorem State.setReply_rem (v : Nat) : (s.setReply v).rem = s.rem := rfl
@[simp] theorem State.setReply_seeded (v : Nat) : (s.setReply v).seeded = s.seeded := rfl
@[simp] theorem State.setReply_upc (v : Nat) : (s.setReply v).upc = s.upc := rfl
@[simp] theorem State.setReply_len (v : Nat) : (s.setReply v).len = s.len := rfl
@[simp] theorem State.setReply_lenHeld (v : Nat) : (s.setReply v).lenHeld = s.lenHeld := rfl
@[simp] theorem State.setReply_base (v : Nat) : (s.setReply v).base = s.base := rfl
@[simp] theorem State.setReply_baseHeld (v : Nat) : (s.setReply v).baseHeld = s.baseHeld := rfl
@[simp] theorem State.setReply_digest (v : Nat) : (s.setReply v).digest = s.digest := rfl
@[simp] theorem State.setReply_mem (v : Nat) : (s.setReply v).mem = s.mem := rfl
@[simp] theorem State.setReply_requests (v : Nat) : (s.setReply v).requests = s.requests := rfl
@[simp] theorem State.setReply_reply (v : Nat) : (s.setReply v).reply = some v := rfl

end Sys2Proof.Machine
end

