-- ==== Sys2Proof/Laws/Ops.lean ====
section
/-! SUPPORT. What the shared operations can answer: one lemma per operation, for later proofs to cite instead of unfolding
it. -/

namespace Sys2Proof.Machine

theorem onWorking_of_seeded {s : State} (h : s.seeded = true) (k : Outcome) : onWorking s k = k := by
  simp [onWorking, h]

theorem onWorking_of_not_seeded {s : State} (h : s.seeded = false) (k : Outcome) :
    onWorking s k = .refused .readOfUnwrittenState := by simp [onWorking, h]

/-- If the guard on the working registers answers a next state, they hold values and the rest answered it. -/
theorem onWorking_next {s t : State} {k : Outcome} (h : onWorking s k = .next t) : s.seeded = true ∧ k = .next t := by
  cases hs : s.seeded with
  | true => exact ⟨rfl, by rwa [onWorking_of_seeded hs] at h⟩
  | false => rw [onWorking_of_not_seeded hs] at h; cases h

/-- If an operation on the input answers a next state, the read answered a value. -/
theorem onInput_next {α : Type} {v : Option α} {k : α → Outcome} {t : State} (h : onInput v k = .next t) :
    ∃ x, v = some x ∧ k x = .next t := by
  cases v with
  | some x => exact ⟨x, rfl, h⟩
  | none => cases h

/-- If an operation ends in a next state, only `upc` has changed since its own writes, to the successor of R181. -/
theorem retire_next {i : Instr} {m t : State} (h : retire i m = .next t) :
    ∃ u, successor i m = some u ∧ t = m.setUpc u := by
  unfold retire at h
  split at h
  · next u hu => cases h; exact ⟨u, hu, rfl⟩
  · cases h

theorem retire_of_successor {i : Instr} {m : State} {u : Upc} (h : successor i m = some u) :
    retire i m = .next (m.setUpc u) := by simp [retire, h]

theorem retire_of_no_successor {i : Instr} {m : State} (h : successor i m = none) :
    retire i m = .refused .readOfUnwrittenState := by simp [retire, h]

/-- The path condition has a value where the host's duty on `BASE` is done (R243 step 3). -/
theorem fastPath_eq {s : State} (h : Config.fastpath = true → s.baseHeld = true) :
    fastPath s = some (Config.fastpath && decide (s.base % 4 = 0)) := by
  unfold fastPath
  cases hf : Config.fastpath <;> cases hb : s.baseHeld <;> simp_all

/-- With `FASTPATH` true and `BASE` unwritten the path condition has no value (R41). -/
theorem fastPath_eq_none {s : State} (hf : Config.fastpath = true) (hb : s.baseHeld = false) : fastPath s = none := by
  simp [fastPath, hf, hb]

/-- The path condition looks at nothing but `BASE` and whether it holds a value. -/
theorem fastPath_congr {s t : State} (h₁ : s.base = t.base) (h₂ : s.baseHeld = t.baseHeld) : fastPath s = fastPath t := by
  simp [fastPath, h₁, h₂]

theorem byPath_of_fastPath {s : State} {b : Bool} (h : fastPath s = some b) (x y : Instr) :
    byPath s x y = some (.op (if b then x else y)) := by simp [byPath, h]

/-- If a row pair of R181 gives a successor, the path condition has the value that picks it. -/
theorem byPath_eq_some {s : State} {x y : Instr} {u : Upc} (h : byPath s x y = some u) :
    (fastPath s = some true ∧ u = .op x) ∨ (fastPath s = some false ∧ u = .op y) := by
  unfold byPath at h
  cases hf : fastPath s with
  | none => simp [hf] at h
  | some b => cases b <;> simp_all

/-- What the loop test and the dispatch of R181 can answer. -/
theorem loopTarget_eq_some {s : State} {u : Upc} (h : loopTarget s = some u) :
    (12 ≤ s.rem.toNat ∧ u = .op .absorb) ∨ (s.rem.toNat = 11 ∧ u = .op .tail11) ∨
    (s.rem.toNat = 10 ∧ u = .op .tail10) ∨ (s.rem.toNat = 9 ∧ u = .op .tail9) ∨
    (s.rem.toNat = 8 ∧ fastPath s = some true ∧ u = .op .tailwb) ∨
    (s.rem.toNat = 8 ∧ fastPath s = some false ∧ u = .op .tail8) ∨
    (s.rem.toNat = 7 ∧ u = .op .tail7) ∨ (s.rem.toNat = 6 ∧ u = .op .tail6) ∨ (s.rem.toNat = 5 ∧ u = .op .tail5) ∨
    (s.rem.toNat = 4 ∧ fastPath s = some true ∧ u = .op .tailwa) ∨
    (s.rem.toNat = 4 ∧ fastPath s = some false ∧ u = .op .tail4) ∨
    (s.rem.toNat = 3 ∧ u = .op .tail3) ∨ (s.rem.toNat = 2 ∧ u = .op .tail2) ∨ (s.rem.toNat = 1 ∧ u = .op .tail1) ∨
    (s.rem.toNat = 0 ∧ u = .op .fin1) := by
  unfold loopTarget at h
  split at h
  case h_5 hr => rcases byPath_eq_some h with ⟨hf, rfl⟩ | ⟨hf, rfl⟩ <;> simp [hr, hf]
  case h_9 hr => rcases byPath_eq_some h with ⟨hf, rfl⟩ | ⟨hf, rfl⟩ <;> simp [hr, hf]
  case h_13 h0 h1 h2 h3 h4 h5 h6 h7 h8 h9 h10 h11 =>
    left
    refine ⟨?_, by simpa using h.symm⟩
    rcases Nat.lt_or_ge s.rem.toNat 12 with hlt | hge
    · exfalso
      generalize s.rem.toNat = n at *
      match n, hlt with
      | 0, _ => exact h0 rfl
      | 1, _ => exact h1 rfl
      | 2, _ => exact h2 rfl
      | 3, _ => exact h3 rfl
      | 4, _ => exact h4 rfl
      | 5, _ => exact h5 rfl
      | 6, _ => exact h6 rfl
      | 7, _ => exact h7 rfl
      | 8, _ => exact h8 rfl
      | 9, _ => exact h9 rfl
      | 10, _ => exact h10 rfl
      | 11, _ => exact h11 rfl
    · exact hge
  all_goals
    rename_i hr
    cases h
    simp [hr]

theorem loopTarget_of_ge {s : State} (h : 12 ≤ s.rem.toNat) : loopTarget s = some (.op .absorb) := by
  unfold loopTarget
  split <;> first | rfl | omega

/-- The dispatch always has a target where the path condition has a value. -/
theorem loopTarget_isSome {s : State} {b : Bool} (h : fastPath s = some b) : ∃ u, loopTarget s = some u := by
  unfold loopTarget
  split <;> first | exact ⟨_, rfl⟩ | exact ⟨_, byPath_of_fastPath h _ _⟩

end Sys2Proof.Machine
end

