-- ==== Sys2Proof/Laws/Tables.lean ====
section
/-! SUPPORT. The rows that each operation of the two rounds executes in this configuration (R113, R161), so that no later
proof opens a table. -/

namespace Sys2Proof.Machine

@[simp] theorem roundTables_mix_1 : roundTables.mix[0] = ⟨.a, .c, .c, 4, .c, .b⟩ := rfl
@[simp] theorem roundTables_mix_2 : roundTables.mix[1] = ⟨.b, .a, .a, 6, .a, .c⟩ := rfl
@[simp] theorem roundTables_mix_3 : roundTables.mix[2] = ⟨.c, .b, .b, 8, .b, .a⟩ := rfl
@[simp] theorem roundTables_mix_4 : roundTables.mix[3] = ⟨.a, .c, .c, 16, .c, .b⟩ := rfl
@[simp] theorem roundTables_mix_5 : roundTables.mix[4] = ⟨.b, .a, .a, 19, .a, .c⟩ := rfl
@[simp] theorem roundTables_mix_6 : roundTables.mix[5] = ⟨.c, .b, .b, 4, .b, .a⟩ := rfl

@[simp] theorem finalRows_1 : finalRows roundTables 0 = [⟨.c, .b, .b, 14⟩] := rfl
@[simp] theorem finalRows_2 : finalRows roundTables 1 = [⟨.a, .c, .c, 11⟩] := rfl
@[simp] theorem finalRows_3 : finalRows roundTables 2 = [⟨.b, .a, .a, 25⟩] := rfl
@[simp] theorem finalRows_4 : finalRows roundTables 3 = [⟨.c, .b, .b, 16⟩] := rfl
@[simp] theorem finalRows_5 : finalRows roundTables 4 = [⟨.a, .c, .c, 4⟩] := rfl
@[simp] theorem finalRows_6 : finalRows roundTables 5 = [⟨.b, .a, .a, 14⟩] := rfl

@[simp] theorem finalSteps_nil (x : Acc) : finalSteps [] x = x := rfl

@[simp] theorem finalSteps_cons (r : FinalRow) (rows : List FinalRow) (x : Acc) :
    finalSteps (r :: rows) x = finalSteps rows (finalStep r x) := rfl

theorem finalSteps_append (rows more : List FinalRow) (x : Acc) :
    finalSteps (rows ++ more) x = finalSteps more (finalSteps rows x) := List.foldl_append

end Sys2Proof.Machine
end

