-- ==== Sys2Proof/Laws/Exec.lean ====
section
/-! SUPPORT. What an operation can answer: one inversion lemma per shared form of the meanings, and one for all of them. -/

namespace Sys2Proof.Machine

theorem execInit_next {s t : State} (h : execInit s = .next t) :
    s.lenHeld = true ∧ ∃ u, t = (s.seed ⟨seedK + s.len, seedK + s.len, seedK + s.len⟩ 0#32 s.len).setUpc u ∧
      successor .init (s.seed ⟨seedK + s.len, seedK + s.len, seedK + s.len⟩ 0#32 s.len) = some u := by
  unfold execInit at h
  split at h
  · next hl => obtain ⟨u, hu, rfl⟩ := retire_next h; exact ⟨hl, u, rfl, hu⟩
  · cases h

theorem execAbsorb_next {s t : State} (h : execAbsorb s = .next t) :
    s.seeded = true ∧ ∃ w, readBlock s = some w ∧ t = (s.setAcc (absorbWords w s.acc)).setUpc (.op .mix1) := by
  obtain ⟨hs, h⟩ := onWorking_next h
  obtain ⟨w, hw, h⟩ := onInput_next h
  obtain ⟨u, hu, rfl⟩ := retire_next h
  cases hu
  exact ⟨hs, w, hw, rfl⟩

theorem mixOp_next {tb : RoundTables} {i : Instr} {k : Fin 6} {s t : State} (h : mixOp tb i k s = .next t) :
    s.seeded = true ∧ ∃ u, t = (s.setAcc (mixStep tb.mix[k] s.acc)).setUpc u ∧
      successor i (s.setAcc (mixStep tb.mix[k] s.acc)) = some u := by
  obtain ⟨hs, h⟩ := onWorking_next h
  obtain ⟨u, hu, rfl⟩ := retire_next h
  exact ⟨hs, u, rfl, hu⟩

theorem finalOp_next {tb : RoundTables} {i : Instr} {k : Fin 6} {s t : State} (h : finalOp tb i k s = .next t) :
    s.seeded = true ∧ ∃ u, t = (s.setAcc (finalSteps (finalRows tb k) s.acc)).setUpc u ∧
      successor i (s.setAcc (finalSteps (finalRows tb k) s.acc)) = some u := by
  obtain ⟨hs, h⟩ := onWorking_next h
  obtain ⟨u, hu, rfl⟩ := retire_next h
  exact ⟨hs, u, rfl, hu⟩

theorem execAdvance_next {s t : State} (h : execAdvance s = .next t) :
    s.seeded = true ∧ ∃ u, t = (s.setCursor (s.pos + blockSize) (s.rem - blockSize)).setUpc u ∧
      successor .advance (s.setCursor (s.pos + blockSize) (s.rem - blockSize)) = some u := by
  obtain ⟨hs, h⟩ := onWorking_next h
  obtain ⟨u, hu, rfl⟩ := retire_next h
  exact ⟨hs, u, rfl, hu⟩

theorem addTailByte_next {i : Instr} {r : Reg} {index shift : Nat} {s t : State}
    (h : addTailByte i r index shift s = .next t) :
    s.seeded = true ∧ ∃ v, readByte s (s.pos.toNat + index) = some v ∧ ∃ u,
      t = (s.setAcc (s.acc.add r (placeByte v shift))).setUpc u ∧
      successor i (s.setAcc (s.acc.add r (placeByte v shift))) = some u := by
  obtain ⟨hs, h⟩ := onWorking_next h
  obtain ⟨v, hv, h⟩ := onInput_next h
  obtain ⟨u, hu, rfl⟩ := retire_next h
  exact ⟨hs, v, hv, u, rfl, hu⟩

theorem addTailWord_next {i : Instr} {r : Reg} {index : Nat} {s t : State} (h : addTailWord i r index s = .next t) :
    s.seeded = true ∧ ∃ w, readWord s (s.pos.toNat + index) = some w ∧ ∃ u,
      t = (s.setAcc (s.acc.add r w)).setUpc u ∧ successor i (s.setAcc (s.acc.add r w)) = some u := by
  obtain ⟨hs, h⟩ := onWorking_next h
  obtain ⟨w, hw, h⟩ := onInput_next h
  obtain ⟨u, hu, rfl⟩ := retire_next h
  exact ⟨hs, w, hw, u, rfl, hu⟩

theorem execResult_next {s t : State} (h : execResult s = .next t) :
    s.seeded = true ∧ t = (s.setDigest (some s.acc.c)).setUpc .done := by
  obtain ⟨hs, h⟩ := onWorking_next h
  obtain ⟨u, hu, rfl⟩ := retire_next h
  cases hu
  exact ⟨hs, rfl⟩

/-- The registers and the input that no operation writes, equal in two states. -/
structure SameSurroundings (s t : State) : Prop where
  len : t.len = s.len
  lenHeld : t.lenHeld = s.lenHeld
  base : t.base = s.base
  baseHeld : t.baseHeld = s.baseHeld
  mem : t.mem = s.mem
  requests : t.requests = s.requests
  reply : t.reply = s.reply

theorem sameSurroundings_setAcc (s : State) (x : Acc) : SameSurroundings s (s.setAcc x) :=
  ⟨rfl, rfl, rfl, rfl, rfl, rfl, rfl⟩

theorem sameSurroundings_setCursor (s : State) (p r : Word) : SameSurroundings s (s.setCursor p r) :=
  ⟨rfl, rfl, rfl, rfl, rfl, rfl, rfl⟩

theorem sameSurroundings_seed (s : State) (x : Acc) (p r : Word) : SameSurroundings s (s.seed x p r) :=
  ⟨rfl, rfl, rfl, rfl, rfl, rfl, rfl⟩

theorem sameSurroundings_setDigest (s : State) (d : Option Word) : SameSurroundings s (s.setDigest d) :=
  ⟨rfl, rfl, rfl, rfl, rfl, rfl, rfl⟩

/-- Every operation that answers a next state makes its own writes, in a state `m` with the same surroundings, and then
takes its successor there. -/
theorem exec_next {i : Instr} {s t : State} (h : exec i s = .next t) :
    ∃ m u, SameSurroundings s m ∧ successor i m = some u ∧ t = m.setUpc u := by
  cases i
  case init => obtain ⟨-, u, ht, hu⟩ := execInit_next h; exact ⟨_, u, sameSurroundings_seed .., hu, ht⟩
  case absorb => obtain ⟨-, w, -, ht⟩ := execAbsorb_next h; exact ⟨_, _, sameSurroundings_setAcc .., rfl, ht⟩
  case advance => obtain ⟨-, u, ht, hu⟩ := execAdvance_next h; exact ⟨_, u, sameSurroundings_setCursor .., hu, ht⟩
  case result => obtain ⟨-, ht⟩ := execResult_next h; exact ⟨_, _, sameSurroundings_setDigest .., rfl, ht⟩
  case tailwa | tailwb =>
    obtain ⟨-, w, -, u, ht, hu⟩ := addTailWord_next h; exact ⟨_, u, sameSurroundings_setAcc .., hu, ht⟩
  case mix1 | mix2 | mix3 | mix4 | mix5 | mix6 =>
    obtain ⟨-, u, ht, hu⟩ := mixOp_next h; exact ⟨_, u, sameSurroundings_setAcc .., hu, ht⟩
  case fin1 | fin2 | fin3 | fin4 | fin5 | fin6 =>
    obtain ⟨-, u, ht, hu⟩ := finalOp_next h; exact ⟨_, u, sameSurroundings_setAcc .., hu, ht⟩
  all_goals
    obtain ⟨-, v, -, u, ht, hu⟩ := addTailByte_next h
    exact ⟨_, u, sameSurroundings_setAcc .., hu, ht⟩

end Sys2Proof.Machine
end

