-- ==== Sys2Proof/Laws/HostPort.lean ====
section
/-! SUPPORT. What a host request and a step can answer. -/

namespace Sys2Proof.Machine

theorem whenResting_next {s t : State} {k : Outcome} (h : whenResting s k = .next t) :
    s.upc.busy = false ∧ k = .next t := by
  unfold whenResting at h
  split at h
  · cases h
  · next hb => exact ⟨by simpa using hb, h⟩

/-- If a write of `CTRL` at rest answers a next state, it has begun a run or changed nothing (R33). -/
theorem writeCtrl_next {v : Word} {s t : State} (h : writeCtrl v s = .next t) :
    t = (s.setDigest none).setUpc (.op .init) ∨ t = s := by
  unfold writeCtrl at h
  split at h
  · cases h
  · split at h
    · exact .inl (Host.Outcome.next.inj h).symm
    · exact .inr (Host.Outcome.next.inj h).symm

/-- If a register write answers a next state, the block rests, and it is a write of `LEN`, of `BASE`, or of `CTRL` with
`START` set or clear. -/
theorem hostWrite_next {r : HostReg} {v : Nat} {s t : State} (h : hostWrite r v s = .next t) :
    s.upc.busy = false ∧
      ((r = .len ∧ t = s.setLen (BitVec.ofNat 32 v)) ∨ (r = .base ∧ t = s.setBase (v % 2 ^ Config.xaddr)) ∨
       (r = .ctrl ∧ t = (s.setDigest none).setUpc (.op .init)) ∨ (r = .ctrl ∧ t = s)) := by
  cases r
  case len => obtain ⟨hb, h⟩ := whenResting_next h; cases h; exact ⟨hb, .inl ⟨rfl, rfl⟩⟩
  case base => obtain ⟨hb, h⟩ := whenResting_next h; cases h; exact ⟨hb, .inr (.inl ⟨rfl, rfl⟩)⟩
  case ctrl =>
    obtain ⟨hb, h⟩ := whenResting_next h
    rcases writeCtrl_next h with rfl | rfl
    · exact ⟨hb, .inr (.inr (.inl ⟨rfl, rfl⟩))⟩
    · exact ⟨hb, .inr (.inr (.inr ⟨rfl, rfl⟩))⟩
  case status => cases h
  case digest => cases h

/-- If a register read answers a next state, only the reply has changed. -/
theorem hostRead_next {r : HostReg} {s t : State} (h : hostRead r s = .next t) : ∃ v, t = s.setReply v := by
  cases r <;> simp only [hostRead] at h
  case len => split at h <;> cases h; exact ⟨_, rfl⟩
  case base => split at h <;> cases h; exact ⟨_, rfl⟩
  case ctrl => cases h; exact ⟨_, rfl⟩
  case status => cases h; exact ⟨_, rfl⟩
  case digest =>
    unfold readDigest at h
    split at h <;> cases h
    exact ⟨_, rfl⟩

theorem supplyInput_next {bytes : List Byte} {s t : State} (h : supplyInput bytes s = .next t) :
    s.upc.busy = false ∧ t = s.setMem (Memory.ofBytes bytes) := by
  unfold supplyInput at h
  cases hb : s.upc.busy <;> simp only [hb] at h <;> cases h
  exact ⟨rfl, rfl⟩

theorem issueCode_next {code : Byte} {s t : State} (h : issueCode code s = .next t) :
    ∃ i rest, decode [code] = .ok (i, rest) ∧ s.upc = .op i ∧ exec i s = .next t := by
  unfold issueCode at h
  split at h
  · cases h
  · next i rest hd =>
    split at h
    · next hu => exact ⟨i, rest, hd, hu, h⟩
    · cases h

theorem sequencerStep_next {s t : State} (h : sequencerStep s = .next t) :
    ∃ i, s.upc = .op i ∧ exec i s = .next t := by
  unfold sequencerStep at h
  split at h
  · next i hu => exact ⟨i, hu, h⟩
  · cases h
  · cases h

theorem step_of_request {s : State} {r : HostRequest} {rs : List HostRequest} (h : s.requests = r :: rs) :
    step s = serve r (s.setRequests rs) := by simp [step, stepState, h]

theorem step_of_no_request {s : State} (h : s.requests = []) : step s = sequencerStep s := by
  simp [step, stepState, h]

/-- Everything a step that answers a next state can be: the service of the oldest host request, or the sequencer's step. -/
theorem step_next {s t : State} (h : step s = .next t) :
    (∃ r rs, s.requests = r :: rs ∧ serve r (s.setRequests rs) = .next t) ∨
    (s.requests = [] ∧ ∃ i, s.upc = .op i ∧ exec i s = .next t) := by
  cases hr : s.requests with
  | nil => rw [step_of_no_request hr] at h; exact .inr ⟨rfl, sequencerStep_next h⟩
  | cons r rs => rw [step_of_request hr] at h; exact .inl ⟨r, rs, rfl, h⟩

/-- If codes handed over one after the other answer a next state, the run has ended (R185). -/
theorem issueAll_next {codes : List Byte} {s t : State} (h : issueAll codes s = .next t) : t.upc = .done := by
  induction codes generalizing s with
  | nil =>
    unfold issueAll at h
    split at h
    · next hd => cases h; exact hd
    · cases h
  | cons code rest ih =>
    simp only [issueAll] at h
    split at h
    · exact ih h
    · cases h
    · cases h

/-- If a stream answers a next state, it is a well-formed stream of operations whose codes the block took one after the
other (R88). -/
theorem runStream_next {codes : List Byte} {s t : State} (h : runStream codes s = .next t) :
    ∃ ops, decodeAll codes = some ops ∧ streamWf ops = true ∧ issueAll codes s = .next t := by
  unfold runStream at h
  split at h
  · cases h
  · next ops hd =>
    split at h
    · next hw => exact ⟨ops, hd, hw, h⟩
    · cases h

/-- A stream of operations that is not well formed is refused in every state (R88). -/
theorem runStream_of_not_wf {codes : List Byte} {ops : List Instr} (hd : decodeAll codes = some ops)
    (hw : streamWf ops = false) (s : State) : runStream codes s = .refused .notARun := by
  simp [runStream, hd, hw]

end Sys2Proof.Machine
end

