-- ==== Sys2Proof/Laws/PerInstr.lean ====
section
/-! SUPPORT. A fact about every operation as it is written: it is well formed, its words are one byte, and the group nibble
of that byte names its family (R81, R82). -/

namespace Sys2Proof.Laws

/-- The group nibble of a family (R81): the result shares the final family's. -/
def familyGroup : Family → BitVec 4
  | .initialise => 0#4
  | .bulk => 1#4
  | .tail => 2#4
  | .final | .result => 3#4

/-- One code byte, in the group of the operation's family. -/
def OneByte.Statement (i : Instr) : Prop :=
  i.wf = true ∧ ∃ code, encode i = [code] ∧ codeGroup code = familyGroup i.family

theorem OneByte.init : OneByte.Statement .init := ⟨rfl, _, rfl, rfl⟩
theorem OneByte.absorb : OneByte.Statement .absorb := ⟨rfl, _, rfl, rfl⟩
theorem OneByte.mix1 : OneByte.Statement .mix1 := ⟨rfl, _, rfl, rfl⟩
theorem OneByte.mix2 : OneByte.Statement .mix2 := ⟨rfl, _, rfl, rfl⟩
theorem OneByte.mix3 : OneByte.Statement .mix3 := ⟨rfl, _, rfl, rfl⟩
theorem OneByte.mix4 : OneByte.Statement .mix4 := ⟨rfl, _, rfl, rfl⟩
theorem OneByte.mix5 : OneByte.Statement .mix5 := ⟨rfl, _, rfl, rfl⟩
theorem OneByte.mix6 : OneByte.Statement .mix6 := ⟨rfl, _, rfl, rfl⟩
theorem OneByte.advance : OneByte.Statement .advance := ⟨rfl, _, rfl, rfl⟩
theorem OneByte.tail1 : OneByte.Statement .tail1 := ⟨rfl, _, rfl, rfl⟩
theorem OneByte.tail2 : OneByte.Statement .tail2 := ⟨rfl, _, rfl, rfl⟩
theorem OneByte.tail3 : OneByte.Statement .tail3 := ⟨rfl, _, rfl, rfl⟩
theorem OneByte.tail4 : OneByte.Statement .tail4 := ⟨rfl, _, rfl, rfl⟩
theorem OneByte.tail5 : OneByte.Statement .tail5 := ⟨rfl, _, rfl, rfl⟩
theorem OneByte.tail6 : OneByte.Statement .tail6 := ⟨rfl, _, rfl, rfl⟩
theorem OneByte.tail7 : OneByte.Statement .tail7 := ⟨rfl, _, rfl, rfl⟩
theorem OneByte.tail8 : OneByte.Statement .tail8 := ⟨rfl, _, rfl, rfl⟩
theorem OneByte.tail9 : OneByte.Statement .tail9 := ⟨rfl, _, rfl, rfl⟩
theorem OneByte.tail10 : OneByte.Statement .tail10 := ⟨rfl, _, rfl, rfl⟩
theorem OneByte.tail11 : OneByte.Statement .tail11 := ⟨rfl, _, rfl, rfl⟩
theorem OneByte.tailwa : OneByte.Statement .tailwa := ⟨rfl, _, rfl, rfl⟩
theorem OneByte.tailwb : OneByte.Statement .tailwb := ⟨rfl, _, rfl, rfl⟩
theorem OneByte.fin1 : OneByte.Statement .fin1 := ⟨rfl, _, rfl, rfl⟩
theorem OneByte.fin2 : OneByte.Statement .fin2 := ⟨rfl, _, rfl, rfl⟩
theorem OneByte.fin3 : OneByte.Statement .fin3 := ⟨rfl, _, rfl, rfl⟩
theorem OneByte.fin4 : OneByte.Statement .fin4 := ⟨rfl, _, rfl, rfl⟩
theorem OneByte.fin5 : OneByte.Statement .fin5 := ⟨rfl, _, rfl, rfl⟩
theorem OneByte.fin6 : OneByte.Statement .fin6 := ⟨rfl, _, rfl, rfl⟩
theorem OneByte.result : OneByte.Statement .result := ⟨rfl, _, rfl, rfl⟩

end Sys2Proof.Laws
end

