-- ==== Sys2Proof/Machine/Asm.lean ====
section
/-! DEFINITION. The assembler of R86 and R87: one mnemonic a line, upper case, no operands; `#` starts a comment; the
pseudo-operations are replaced by their expansions. -/

namespace Sys2Proof.Machine

/-- A line without its comment (R86). -/
def stripComment : List Char → List Char
  | [] => []
  | ch :: rest => if ch = '#' then [] else ch :: stripComment rest

/-- The character lists between separators, empty ones among them. -/
def splitOn (sep : Char → Bool) : List Char → List (List Char)
  | [] => [[]]
  | ch :: rest =>
    if sep ch then [] :: splitOn sep rest
    else
      match splitOn sep rest with
      | [] => [[ch]]
      | first :: others => (ch :: first) :: others

/-- The words of a line: what stands between blanks. -/
def lineWords (line : List Char) : List (List Char) :=
  (splitOn (fun ch => ch = ' ' || ch = '\t' || ch = '\r') line).filter (fun w => !w.isEmpty)

/-- A decimal number (R10). -/
def decimal : List Char → Option Nat
  | [] => none
  | digits =>
    digits.foldl (fun acc ch =>
      match acc with
      | some n => if '0' ≤ ch && ch ≤ '9' then some (10 * n + (ch.toNat - '0'.toNat)) else none
      | none => none) (some 0)

/-- The pseudo-operations written without an operand (R87). `HASH` stands for the stream of the run's `LEN`. -/
def pseudoOfName (len : Nat) (w : List Char) : Option Pseudo :=
  if w = ['M', 'I', 'X'] then some .mix
  else if w = ['B', 'L', 'O', 'C', 'K'] then some .block
  else if w = ['F', 'I', 'N', 'A', 'L'] then some .final
  else if w = ['H', 'A', 'S', 'H'] then some (.hash len)
  else none

/-- `TAIL n` and `TAILF n` (R87). -/
def pseudoWithCount (w : List Char) (n : Nat) : Option Pseudo :=
  if w = ['T', 'A', 'I', 'L'] then some (.tail n)
  else if w = ['T', 'A', 'I', 'L', 'F'] then some (.tailf n)
  else none

/-- The expansion of a pseudo-operation whose operand is in range. -/
def expandChecked (p : Pseudo) : Option (List Instr) := if p.wf then some p.expand else none

/-- The operations a line stands for; none where the line is no line of the language. -/
def parseLine (len : Nat) (line : List Char) : Option (List Instr) :=
  match lineWords (stripComment line) with
  | [] => some []
  | [w] =>
    match Instr.all.find? (fun i => i.mnemonic == w) with
    | some i => some [i]
    | none => (pseudoOfName len w).bind expandChecked
  | [w, operand] => (decimal operand).bind fun n => (pseudoWithCount w n).bind expandChecked
  | _ => none

/-- The operations of a list of lines, in order. -/
def parseLines (len : Nat) : List (List Char) → Option (List Instr)
  | [] => some []
  | line :: rest =>
    match parseLine len line, parseLines len rest with
    | some ops, some more => some (ops ++ more)
    | _, _ => none

/-- The codes of an assembly text for a run of the given `LEN` (R86). -/
def assemble (len : Nat) (text : List Char) : Option (List Byte) :=
  (parseLines len (splitOn (fun ch => ch = '\n') text)).map encodeAll

end Sys2Proof.Machine
end

