-- ==== Sys2Proof/Machine/Function.lean ====
section
/-! DEFINITION. `hash_bytes(data, LEN)` as one function (R188) of the round tables (R9), and the two rounds of the default
tables written out line by line from the spec's listings (R121, R170), so that the tables can be held against them. -/

namespace Sys2Proof.Machine

/-- `le32(off)` over a byte sequence given as a function of the offset (R13). -/
def le32At (data : Nat → Byte) (off : Nat) : Word :=
  composeWord (data off) (data (off + 1)) (data (off + 2)) (data (off + 3))

/-- `MIX` of the default table as one function of `(a, b, c)` (R121). -/
def mixFunction (x : Acc) : Acc :=
  let a := x.a; let b := x.b; let c := x.c
  let a := a - c; let a := a ^^^ rotl c 4; let c := c + b
  let b := b - a; let b := b ^^^ rotl a 6; let a := a + c
  let c := c - b; let c := c ^^^ rotl b 8; let b := b + a
  let a := a - c; let a := a ^^^ rotl c 16; let c := c + b
  let b := b - a; let b := b ^^^ rotl a 19; let a := a + c
  let c := c - b; let c := c ^^^ rotl b 4; let b := b + a
  ⟨a, b, c⟩

/-- `FINAL` of the default table as one function of `(a, b, c)` (R170). -/
def finalFunction (x : Acc) : Acc :=
  let a := x.a; let b := x.b; let c := x.c
  let c := c ^^^ b; let c := c - rotl b 14
  let a := a ^^^ c; let a := a - rotl c 11
  let b := b ^^^ a; let b := b - rotl a 25
  let c := c ^^^ b; let c := c - rotl b 16
  let a := a ^^^ c; let a := a - rotl c 4
  let b := b ^^^ a; let b := b - rotl a 14
  ⟨a, b, c⟩

/-- One pass of the bulk loop at offset `p`: absorb three words, then mix (R110). -/
def blockFunction (t : RoundTables) (data : Nat → Byte) (p : Nat) (x : Acc) : Acc :=
  applyMix t ⟨x.a + le32At data p, x.b + le32At data (p + 4), x.c + le32At data (p + 8)⟩

/-- `q` passes of the bulk loop from offset `p` (R123, R183). -/
def bulkFunction (t : RoundTables) (data : Nat → Byte) : Nat → Nat → Acc → Acc
  | 0, _, x => x
  | q + 1, p, x => bulkFunction t data q (p + 12) (blockFunction t data p x)

/-- The tail for `n` remaining bytes at offset `p`: every line whose number is at most `n`, highest first (R130, R188). -/
def tailFunction (data : Nat → Byte) (p n : Nat) (x : Acc) : Acc :=
  let a := x.a; let b := x.b; let c := x.c
  let c := if 11 ≤ n then c + (zext32 (data (p + 10)) <<< 24) else c
  let c := if 10 ≤ n then c + (zext32 (data (p + 9)) <<< 16) else c
  let c := if 9 ≤ n then c + (zext32 (data (p + 8)) <<< 8) else c
  let b := if 8 ≤ n then b + (zext32 (data (p + 7)) <<< 24) else b
  let b := if 7 ≤ n then b + (zext32 (data (p + 6)) <<< 16) else b
  let b := if 6 ≤ n then b + (zext32 (data (p + 5)) <<< 8) else b
  let b := if 5 ≤ n then b + zext32 (data (p + 4)) else b
  let a := if 4 ≤ n then a + (zext32 (data (p + 3)) <<< 24) else a
  let a := if 3 ≤ n then a + (zext32 (data (p + 2)) <<< 16) else a
  let a := if 2 ≤ n then a + (zext32 (data (p + 1)) <<< 8) else a
  let a := if 1 ≤ n then a + zext32 (data p) else a
  ⟨a, b, c⟩

/-- The accumulators after the tail of a run: seed, bulk loop, tail (R188). -/
def beforeFinal (t : RoundTables) (data : Nat → Byte) (len : Word) : Acc :=
  let k := seedK + len
  let q := len.toNat / 12
  tailFunction data (12 * q) (len.toNat % 12) (bulkFunction t data q 0 ⟨k, k, k⟩)

/-- `hash_bytes(data, LEN)` of a block with the given tables (R9, R187, R188). -/
def hashBytesWith (t : RoundTables) (data : Nat → Byte) (len : Word) : Word := (applyFinal t (beforeFinal t data len)).c

/-- `hash_bytes(data, LEN)` (R187, R188) of this configuration. -/
def hashBytes (data : Nat → Byte) (len : Word) : Word := hashBytesWith roundTables data len

/-- A byte list as a function of the offset, zero beyond its end: for calling `hashBytes` on a literal. -/
def bytesAt (bytes : List Byte) (off : Nat) : Byte := bytes.getD off 0#8

/-- The number of operations the tail takes for `t` remaining bytes (R184): `t` on the portable path, `tf(t)` on the fast
path. -/
def tailCount (t : Nat) (fast : Bool) : Nat :=
  if fast then [0, 1, 2, 3, 1, 2, 3, 4, 2, 3, 4, 5].getD t 0 else t

/-- The number of operations of a run (R184). -/
def runLength (len : Nat) (fast : Bool) : Nat := 8 + 8 * (len / 12) + tailCount (len % 12) fast

end Sys2Proof.Machine
end

