-- ==== Sys2Proof/Safety.lean ====
section
/-! DEFINITION. What counts as a well-kept state and a valid run, in the terms the statements use. -/

namespace Sys2Proof.Machine

/-- `n` steps of the machine lead from `s` to `t`, none of them a fault or a refusal. -/
def stepsTo : Nat → State → State → Prop
  | 0, s, t => s = t
  | n + 1, s, t => ∃ u, step s = .next u ∧ stepsTo n u t

/-- The input as a function of the offset, zero where it is not readable. A valid run never looks there (R63). -/
def State.data (s : State) (off : Nat) : Byte := (s.mem.byteAt off).getD 0#8

/-- The fast-path condition `FASTPATH and (BASE mod 4 = 0)` of R58 and R181. -/
def State.fast (s : State) : Bool := Config.fastpath && decide (s.base % 4 = 0)

/-- The host has done its duty of R243 step 3: `BASE` is written if `FASTPATH` is true. -/
def State.baseReady (s : State) : Prop := Config.fastpath = true → s.baseHeld = true

/-- What the host must have in place before START for the run to be valid (R243): an input at least `LEN` bytes long, `LEN`
written, and `BASE` written if `FASTPATH` is true. -/
structure State.ReadyToRun (s : State) : Prop where
  lenHeld : s.lenHeld = true
  baseReady : s.baseReady
  readable : s.len.toNat ≤ s.mem.extent

/-- The values of `rem` with which the sequencer is at an operation, and the path it is on there (R61, R134, R138, R143,
R144, R149, R181). The byte operations below a word operation are on the fast path only where the word would not fit. -/
def phase (i : Instr) (s : State) : Prop :=
  match i with
  | .init => True
  | .absorb | .mix1 | .mix2 | .mix3 | .mix4 | .mix5 | .mix6 | .advance => 12 ≤ s.rem.toNat
  | .tail1 => 1 ≤ s.rem.toNat ∧ s.rem.toNat ≤ 11 ∧ (fastPath s = some true → s.rem.toNat ≤ 3)
  | .tail2 => 2 ≤ s.rem.toNat ∧ s.rem.toNat ≤ 11 ∧ (fastPath s = some true → s.rem.toNat ≤ 3)
  | .tail3 => 3 ≤ s.rem.toNat ∧ s.rem.toNat ≤ 11 ∧ (fastPath s = some true → s.rem.toNat ≤ 3)
  | .tail4 => 4 ≤ s.rem.toNat ∧ s.rem.toNat ≤ 11 ∧ fastPath s = some false
  | .tail5 => 5 ≤ s.rem.toNat ∧ s.rem.toNat ≤ 11 ∧ (fastPath s = some true → s.rem.toNat ≤ 7)
  | .tail6 => 6 ≤ s.rem.toNat ∧ s.rem.toNat ≤ 11 ∧ (fastPath s = some true → s.rem.toNat ≤ 7)
  | .tail7 => 7 ≤ s.rem.toNat ∧ s.rem.toNat ≤ 11 ∧ (fastPath s = some true → s.rem.toNat ≤ 7)
  | .tail8 => 8 ≤ s.rem.toNat ∧ s.rem.toNat ≤ 11 ∧ fastPath s = some false
  | .tail9 => 9 ≤ s.rem.toNat ∧ s.rem.toNat ≤ 11
  | .tail10 => 10 ≤ s.rem.toNat ∧ s.rem.toNat ≤ 11
  | .tail11 => s.rem.toNat = 11
  | .tailwa => 4 ≤ s.rem.toNat ∧ s.rem.toNat ≤ 11 ∧ fastPath s = some true
  | .tailwb => 8 ≤ s.rem.toNat ∧ s.rem.toNat ≤ 11 ∧ fastPath s = some true
  | .fin1 | .fin2 | .fin3 | .fin4 | .fin5 | .fin6 | .result => s.rem.toNat ≤ 11

/-- What holds inside a run, once INIT has executed (R26): the working registers and `LEN` hold values, `pos + rem = LEN`
without wrapping, `pos` is a multiple of 12, and the operation is one `rem` allows. -/
structure State.InRun (s : State) (i : Instr) : Prop where
  seeded : s.seeded = true
  lenHeld : s.lenHeld = true
  split : s.pos.toNat + s.rem.toNat = s.len.toNat
  blocks : s.pos.toNat % 12 = 0
  phase : phase i s

/-- The invariant every step keeps: the input is in canonical form, `BASE` fits its width, `DIGEST` holds a value exactly
at `DONE` (R35), and inside a run R26 holds. -/
structure State.Inv (s : State) : Prop where
  input : s.mem.wf = true
  baseFits : s.base < 2 ^ Config.xaddr
  digest : s.digest.isSome = true ↔ s.upc = .done
  running : ∀ i, s.upc = .op i → i ≠ .init → s.InRun i

/-- The bytes past the read position that an operation reads: its lowest and its end (R61, R83). -/
def readSpan : Instr → Nat × Nat
  | .absorb => (0, 12)
  | .tail1 => (0, 1)
  | .tail2 => (1, 2)
  | .tail3 => (2, 3)
  | .tail4 => (3, 4)
  | .tail5 => (4, 5)
  | .tail6 => (5, 6)
  | .tail7 => (6, 7)
  | .tail8 => (7, 8)
  | .tail9 => (8, 9)
  | .tail10 => (9, 10)
  | .tail11 => (10, 11)
  | .tailwa => (0, 4)
  | .tailwb => (4, 8)
  | .init | .mix1 | .mix2 | .mix3 | .mix4 | .mix5 | .mix6 | .advance => (0, 0)
  | .fin1 | .fin2 | .fin3 | .fin4 | .fin5 | .fin6 | .result => (0, 0)

/-- The next `n` bytes past the read position are admitted by R61: inside `LEN` and inside the readable extent. -/
def State.canRead (s : State) (n : Nat) : Prop :=
  s.pos.toNat + n ≤ s.len.toNat ∧ s.pos.toNat + n ≤ s.mem.extent

/-- The operations that write `a`, by the table of R22. -/
def writesA : List Instr :=
  [.init, .absorb, .mix1, .mix4, .mix2, .mix5, .tail1, .tail2, .tail3, .tail4, .tailwa, .fin2, .fin5]

/-- The operations that write `b`, by the table of R22. -/
def writesB : List Instr :=
  [.init, .absorb, .mix2, .mix5, .mix3, .mix6, .tail5, .tail6, .tail7, .tail8, .tailwb, .fin3, .fin6]

/-- The operations that write `c`, by the table of R22. -/
def writesC : List Instr :=
  [.init, .absorb, .mix1, .mix4, .mix3, .mix6, .tail9, .tail10, .tail11, .fin1, .fin4]

/-- Operation `i` is issued only after one of `before` (the sequencing clauses of the family files): whenever an operation
leaves the sequencer at `i`, that operation is in the list. -/
def issuedOnlyAfter (i : Instr) (before : List Instr) : Prop :=
  ∀ j s t, exec j s = .next t → t.upc = .op i → j ∈ before

/-- The dispatch of INIT and ADVANCE issues operation `i` exactly when `n` bytes remain, on the read paths listed (R181). -/
def issuedFirstWhen (i : Instr) (n : Nat) (paths : List Bool) : Prop :=
  ∀ j s t, (j = .init ∨ j = .advance) → exec j s = .next t → (t.upc = .op i ↔ t.rem.toNat = n ∧ t.fast ∈ paths)

/-- Operation `i` is issued on one of the two read paths only (R58, R149). -/
def issuedOnlyOn (fast : Bool) (i : Instr) : Prop :=
  ∀ j s t, exec j s = .next t → t.upc = .op i → t.fast = fast

end Sys2Proof.Machine
end

