-- ==== Sys2Proof/Certificates/Slice0/Obligations.lean ====
section
/-! DEFINITION. The statements for the provers, from the numbered rules of spec/. Each says in its comment what it
formalises; a clause that rests on the model's own choice names the entry of the assumption log. -/

open Sys2Proof Sys2Proof.Machine

/-- O1 (R82). For every row of the code table, the decoder reads the row's code, written out from the table, as the
row's operation and leaves the bytes after it. -/
def Obligations.CodesOfTheTableDecode : Prop :=
  ∀ row ∈
    [ (0x00#8, Instr.init), (0x10#8, .absorb), (0x11#8, .mix1), (0x12#8, .mix2), (0x13#8, .mix3), (0x14#8, .mix4),
      (0x15#8, .mix5), (0x16#8, .mix6), (0x1F#8, .advance), (0x21#8, .tail1), (0x22#8, .tail2), (0x23#8, .tail3),
      (0x24#8, .tail4), (0x25#8, .tail5), (0x26#8, .tail6), (0x27#8, .tail7), (0x28#8, .tail8), (0x29#8, .tail9),
      (0x2A#8, .tail10), (0x2B#8, .tail11), (0x2E#8, .tailwa), (0x2F#8, .tailwb), (0x31#8, .fin1), (0x32#8, .fin2),
      (0x33#8, .fin3), (0x34#8, .fin4), (0x35#8, .fin5), (0x36#8, .fin6), (0x3F#8, .result) ],
    ∀ (rest : List Byte), decode (row.1 :: rest) = .ok (row.2, rest)

/-- O2 (spec/30_encoding.md sections 2 and 3). For every well-formed operation and any bytes after it, decoding its
encoding gives the operation and those bytes; and whenever a byte list decodes to an operation, it is that
operation's encoding followed by the bytes left. -/
def Obligations.DecodeAndEncodeAgree : Prop :=
  (∀ (i : Instr) (rest : List Byte), i.wf = true → decode (encode i ++ rest) = .ok (i, rest)) ∧
  (∀ (bytes : List Byte) (i : Instr) (rest : List Byte), decode bytes = .ok (i, rest) → i.wf = true ∧
    bytes = encode i ++ rest)

/-- O3 (R85). Exactly 227 byte values are the code of no operation; the decoder refuses each of them by name; a step
that hands one to the block, in any state, is refused with reserved_opcode; 0x20 is one of them; and wherever the
sequencer stands at an operation, that operation's code is not one of them. -/
def Obligations.ReservedCodesAreRefused : Prop :=
  ((List.range 256).filter fun n => (decodeCode (BitVec.ofNat 8 n)).isNone).length = 227 ∧
  (∀ (code : Byte), (∀ (i : Instr), encodeCode i ≠ code) →
    (∀ (rest : List Byte), decode (code :: rest) = .error (.reserved code)) ∧
    ∀ (s : State) (rs : List HostRequest), s.requests = .issue code :: rs → step s = .refused .reservedOpcode) ∧
  (∀ (i : Instr), encodeCode i ≠ 0x20#8) ∧
  (∀ (s : State) (i : Instr), s.upc = .op i → decodeCode (encodeCode i) = some i)

/-- O4 (R88). The check of a stream of operations accepts it exactly if there are a 32-bit length and a value of the
fast-path condition whose canonical stream it is; in every state, whatever it holds and wherever upc is, running any
other stream of operations through the block is refused with not_a_run; and if running codes through the block
answers a next state, that state is at DONE and the codes are those of a canonical stream. -/
def Obligations.StreamWellFormedness : Prop :=
  (∀ (ops : List Instr), streamWf ops = true ↔ ∃ len fast, len < 2 ^ 32 ∧ ops = hashStream len fast) ∧
  (∀ (s : State) (ops : List Instr), (∀ len fast, len < 2 ^ 32 → ops ≠ hashStream len fast) →
    runStream (encodeAll ops) s = .refused .notARun) ∧
  (∀ (s t : State) (codes : List Byte), runStream codes s = .next t →
    t.upc = .done ∧ ∃ len fast, len < 2 ^ 32 ∧ codes = encodeAll (hashStream len fast))

/-- O5 (spec/44_sequencer_and_function.md section 1, notes/assumptions/17.md, notes/assumptions/18.md). With no host
request pending and upc at an operation, the step is that operation's meaning in that state. A state prepared for a
table word that decodes to an operation has upc at that operation and steps to its meaning (how a word selects an
operation is the model's choice, notes/assumptions/18.md). A state prepared for a table word that decodes to none,
also one longer than 8 bits, steps to the refusal reserved_opcode (the same choice). A pending code that decodes to
the operation upc is at steps to that operation's meaning, with the request removed (that the block takes a code in
place is the model's choice, notes/assumptions/17.md). -/
def Obligations.StepRunsTheSelectedOperation : Prop :=
  (∀ (s : State) (i : Instr), s.requests = [] → s.upc = .op i → step s = exec i s) ∧
  (∀ (s : State) nbits w (i : Instr), decodeTableWord nbits w = some i →
    (s.withFetchWord nbits w).upc = .op i ∧ step (s.withFetchWord nbits w) = exec i (s.withFetchWord nbits w)) ∧
  (∀ (s : State) nbits w, decodeTableWord nbits w = none →
    step (s.withFetchWord nbits w) = .refused .reservedOpcode) ∧
  (∀ (s : State) (code : Byte) (rs : List HostRequest) (i : Instr), s.requests = .issue code :: rs →
    decode [code] = .ok (i, []) → s.upc = .op i →
    step s = exec i { s with requests := rs })

/-- O6 (spec/44_sequencer_and_function.md section 1, notes/assumptions/6.md). With no host request pending and upc IDLE
or DONE, the step is the stop that says no step is enabled (that the model answers a named fault there is the
model's choice, notes/assumptions/6.md). -/
def Obligations.RestingBlockHasNoStep : Prop :=
  ∀ (s : State), s.requests = [] → s.upc = .idle ∨ s.upc = .done → step s = .fault .noStep

/-- O7 (R181). Whenever an operation answers a next state, upc there is what the successor table gives: for INIT and
ADVANCE by the remaining length after their own writes and, at 8 and 4 bytes, by the path; for TAIL9 and TAIL5 by
the path; for every other operation its one successor. -/
def Obligations.SuccessorTable : Prop :=
  ∀ (i : Instr) (s t : State), exec i s = .next t →
    ((i = .init ∨ i = .advance) →
      (12 ≤ t.rem.toNat → t.upc = .op .absorb) ∧
      (t.rem.toNat = 11 → t.upc = .op .tail11) ∧
      (t.rem.toNat = 10 → t.upc = .op .tail10) ∧
      (t.rem.toNat = 9 → t.upc = .op .tail9) ∧
      (t.rem.toNat = 8 → t.fast = false → t.upc = .op .tail8) ∧
      (t.rem.toNat = 8 → t.fast = true → t.upc = .op .tailwb) ∧
      (t.rem.toNat = 7 → t.upc = .op .tail7) ∧
      (t.rem.toNat = 6 → t.upc = .op .tail6) ∧
      (t.rem.toNat = 5 → t.upc = .op .tail5) ∧
      (t.rem.toNat = 4 → t.fast = false → t.upc = .op .tail4) ∧
      (t.rem.toNat = 4 → t.fast = true → t.upc = .op .tailwa) ∧
      (t.rem.toNat = 3 → t.upc = .op .tail3) ∧
      (t.rem.toNat = 2 → t.upc = .op .tail2) ∧
      (t.rem.toNat = 1 → t.upc = .op .tail1) ∧
      (t.rem.toNat = 0 → t.upc = .op .fin1)) ∧
    (i = .absorb → t.upc = .op .mix1) ∧
    (i = .mix1 → t.upc = .op .mix2) ∧ (i = .mix2 → t.upc = .op .mix3) ∧ (i = .mix3 → t.upc = .op .mix4) ∧
    (i = .mix4 → t.upc = .op .mix5) ∧ (i = .mix5 → t.upc = .op .mix6) ∧ (i = .mix6 → t.upc = .op .advance) ∧
    (i = .tail11 → t.upc = .op .tail10) ∧ (i = .tail10 → t.upc = .op .tail9) ∧
    (i = .tail9 → t.upc = .op (if t.fast then .tailwb else .tail8)) ∧
    (i = .tail8 → t.upc = .op .tail7) ∧ (i = .tail7 → t.upc = .op .tail6) ∧ (i = .tail6 → t.upc = .op .tail5) ∧
    (i = .tail5 → t.upc = .op (if t.fast then .tailwa else .tail4)) ∧
    (i = .tail4 → t.upc = .op .tail3) ∧ (i = .tail3 → t.upc = .op .tail2) ∧ (i = .tail2 → t.upc = .op .tail1) ∧
    (i = .tail1 → t.upc = .op .fin1) ∧ (i = .tailwb → t.upc = .op .tailwa) ∧ (i = .tailwa → t.upc = .op .fin1) ∧
    (i = .fin1 → t.upc = .op .fin2) ∧ (i = .fin2 → t.upc = .op .fin3) ∧ (i = .fin3 → t.upc = .op .fin4) ∧
    (i = .fin4 → t.upc = .op .fin5) ∧ (i = .fin5 → t.upc = .op .fin6) ∧ (i = .fin6 → t.upc = .op .result) ∧
    (i = .result → t.upc = .done)

/-- O8 (R100). INIT has code 0x00. With LEN written, and BASE written if FASTPATH is true, it answers the state in which
a, b and c are 0x9e3779b9 + 3923095 + LEN, pos is 0, rem is LEN, the working registers hold values, upc is some
operation, and everything else is as before. With LEN unwritten it is refused with read_of_unwritten_state. No
operation is followed by INIT, and a step that leaves upc at INIT serves the host's write of CTRL or found upc at
INIT. -/
def Obligations.InitSeedsAccumulators : Prop :=
  encode .init = [0x00#8] ∧
  (∀ (s : State), s.lenHeld = true → s.baseReady →
    ∃ i, exec .init s = .next { s with
      acc := ⟨0x9e3779b9#32 + 3923095#32 + s.len, 0x9e3779b9#32 + 3923095#32 + s.len,
        0x9e3779b9#32 + 3923095#32 + s.len⟩,
      pos := 0#32, rem := s.len, seeded := true, upc := .op i }) ∧
  (∀ (s : State), s.lenHeld = false → exec .init s = .refused .readOfUnwrittenState) ∧
  (∀ (i : Instr) (s t : State), exec i s = .next t → t.upc ≠ .op .init) ∧
  (∀ (s t : State), step s = .next t → t.upc = .op .init →
    s.upc = .op .init ∨ ∃ v rs, s.requests = .write .ctrl v :: rs)

/-- O9 (R111). ABSORB has code 0x10. With the working registers seeded, BASE written if FASTPATH is true, and the twelve
bytes at pos readable it answers the state in which a, b and c have the three little-endian words added, upc is
MIX1, and everything else is as before. With pos + 12 beyond the readable extent it answers no next state. It is
issued only after INIT or ADVANCE, with rem at least 12. -/
def Obligations.AbsorbAddsThreeWords : Prop :=
  encode .absorb = [0x10#8] ∧
  (∀ (s : State), s.seeded = true → s.baseReady → s.canRead 12 →
    exec .absorb s = .next { s with
      acc := ⟨s.acc.a + le32At s.data s.pos.toNat, s.acc.b + le32At s.data (s.pos.toNat + 4),
        s.acc.c + le32At s.data (s.pos.toNat + 8)⟩,
      upc := .op .mix1 }) ∧
  (∀ (s t : State), s.mem.extent < s.pos.toNat + 12 → exec .absorb s ≠ .next t) ∧
  issuedOnlyAfter .absorb [.init, .advance] ∧
  (∀ (j : Instr) (s t : State), exec j s = .next t → t.upc = .op .absorb → 12 ≤ t.rem.toNat)

/-- O10 (R114). MIX1 has code 0x11. With the working registers seeded it answers the state in which a is (a - c) ^
rotl(c, 4), c is c + b, both from the values before the operation, upc is MIX2, and everything else is as before. It
is issued only after ABSORB. The register roles rest on decision D5 of the spec (notes/assumptions/11.md). -/
def Obligations.Mix1Result : Prop :=
  encode .mix1 = [0x11#8] ∧
  (∀ (s : State), s.seeded = true →
    exec .mix1 s = .next { s with
      acc := ⟨(s.acc.a - s.acc.c) ^^^ rotl s.acc.c 4, s.acc.b, s.acc.c + s.acc.b⟩, upc := .op .mix2 }) ∧
  issuedOnlyAfter .mix1 [.absorb]

/-- O11 (R115). MIX2 has code 0x12. With the working registers seeded it answers the state in which b is (b - a) ^
rotl(a, 6), a is a + c, both from the values before the operation, upc is MIX3, and everything else is as before. It
is issued only after MIX1. The register roles rest on decision D5 of the spec (notes/assumptions/11.md). -/
def Obligations.Mix2Result : Prop :=
  encode .mix2 = [0x12#8] ∧
  (∀ (s : State), s.seeded = true →
    exec .mix2 s = .next { s with
      acc := ⟨s.acc.a + s.acc.c, (s.acc.b - s.acc.a) ^^^ rotl s.acc.a 6, s.acc.c⟩, upc := .op .mix3 }) ∧
  issuedOnlyAfter .mix2 [.mix1]

/-- O12 (R116). MIX3 has code 0x13. With the working registers seeded it answers the state in which c is (c - b) ^
rotl(b, 8), b is b + a, both from the values before the operation, upc is MIX4, and everything else is as before. It
is issued only after MIX2. The register roles rest on decision D5 of the spec (notes/assumptions/11.md). -/
def Obligations.Mix3Result : Prop :=
  encode .mix3 = [0x13#8] ∧
  (∀ (s : State), s.seeded = true →
    exec .mix3 s = .next { s with
      acc := ⟨s.acc.a, s.acc.b + s.acc.a, (s.acc.c - s.acc.b) ^^^ rotl s.acc.b 8⟩, upc := .op .mix4 }) ∧
  issuedOnlyAfter .mix3 [.mix2]

/-- O13 (R117). MIX4 has code 0x14. With the working registers seeded it answers the state in which a is (a - c) ^
rotl(c, 16), c is c + b, both from the values before the operation, upc is MIX5, and everything else is as before.
It is issued only after MIX3. The register roles rest on decision D5 of the spec (notes/assumptions/11.md). -/
def Obligations.Mix4Result : Prop :=
  encode .mix4 = [0x14#8] ∧
  (∀ (s : State), s.seeded = true →
    exec .mix4 s = .next { s with
      acc := ⟨(s.acc.a - s.acc.c) ^^^ rotl s.acc.c 16, s.acc.b, s.acc.c + s.acc.b⟩, upc := .op .mix5 }) ∧
  issuedOnlyAfter .mix4 [.mix3]

/-- O14 (R118). MIX5 has code 0x15. With the working registers seeded it answers the state in which b is (b - a) ^
rotl(a, 19), a is a + c, both from the values before the operation, upc is MIX6, and everything else is as before.
It is issued only after MIX4. The register roles rest on decision D5 of the spec (notes/assumptions/11.md). -/
def Obligations.Mix5Result : Prop :=
  encode .mix5 = [0x15#8] ∧
  (∀ (s : State), s.seeded = true →
    exec .mix5 s = .next { s with
      acc := ⟨s.acc.a + s.acc.c, (s.acc.b - s.acc.a) ^^^ rotl s.acc.a 19, s.acc.c⟩, upc := .op .mix6 }) ∧
  issuedOnlyAfter .mix5 [.mix4]

/-- O15 (R119). MIX6 has code 0x16. With the working registers seeded it answers the state in which c is (c - b) ^
rotl(b, 4), b is b + a, both from the values before the operation, upc is ADVANCE, and everything else is as before.
It is issued only after MIX5. The register roles rest on decision D5 of the spec (notes/assumptions/11.md). -/
def Obligations.Mix6Result : Prop :=
  encode .mix6 = [0x16#8] ∧
  (∀ (s : State), s.seeded = true →
    exec .mix6 s = .next { s with
      acc := ⟨s.acc.a, s.acc.b + s.acc.a, (s.acc.c - s.acc.b) ^^^ rotl s.acc.b 4⟩, upc := .op .advance }) ∧
  issuedOnlyAfter .mix6 [.mix5]

/-- O16 (R120). ADVANCE has code 0x1F. With the working registers seeded, and BASE written if FASTPATH is true, it
answers the state in which pos is pos + 12, rem is rem - 12, upc is some operation, and everything else is as
before; that operation is ABSORB if at least 12 bytes remain, FIN1 if none, else one of the tail. Where the
invariant holds and upc is ADVANCE, neither update wraps. It is issued only after MIX6. -/
def Obligations.AdvanceMovesPastTheBlock : Prop :=
  encode .advance = [0x1F#8] ∧
  (∀ (s : State), s.seeded = true → s.baseReady →
    ∃ i, exec .advance s = .next { s with pos := s.pos + 12#32, rem := s.rem - 12#32, upc := .op i } ∧
      (12 ≤ (s.rem - 12#32).toNat → i = .absorb) ∧
      (1 ≤ (s.rem - 12#32).toNat → (s.rem - 12#32).toNat ≤ 11 → i.family = .tail) ∧
      ((s.rem - 12#32).toNat = 0 → i = .fin1)) ∧
  (∀ (s : State), s.Inv → s.upc = .op .advance →
    (s.pos + 12#32).toNat = s.pos.toNat + 12 ∧ (s.rem - 12#32).toNat + 12 = s.rem.toNat) ∧
  issuedOnlyAfter .advance [.mix6]

/-- O17 (R131, R132, R133). With the working registers seeded and the bytes up to its own readable (and BASE written if
FASTPATH is true, where the successor depends on the path): TAIL11 (code 0x2B) adds byte 10 past pos, zero-extended
and shifted left by 24, to c and is followed by TAIL10; TAIL10 (code 0x2A) adds byte 9 past pos, zero-extended and
shifted left by 16, to c and is followed by TAIL9; TAIL9 (code 0x29) adds byte 8 past pos, zero-extended and shifted
left by 8, to c and is followed by TAILWB on the fast path and TAIL8 on the portable path. Everything else is as
before. The dispatch issues each exactly when that many bytes remain; otherwise it is issued only after the
operation above it. -/
def Obligations.TailBytesGoIntoC : Prop :=
  (encode .tail11 = [0x2B#8] ∧
   (∀ (s : State), s.seeded = true → s.canRead 11 →
     exec .tail11 s = .next { s with
       acc := ⟨s.acc.a, s.acc.b, s.acc.c + (zext32 (s.data (s.pos.toNat + 10)) <<< 24)⟩, upc := .op .tail10 }) ∧
   issuedOnlyAfter .tail11 [.init, .advance] ∧ issuedFirstWhen .tail11 11 [false, true]) ∧
  (encode .tail10 = [0x2A#8] ∧
   (∀ (s : State), s.seeded = true → s.canRead 10 →
     exec .tail10 s = .next { s with
       acc := ⟨s.acc.a, s.acc.b, s.acc.c + (zext32 (s.data (s.pos.toNat + 9)) <<< 16)⟩, upc := .op .tail9 }) ∧
   issuedOnlyAfter .tail10 [.init, .advance, .tail11] ∧ issuedFirstWhen .tail10 10 [false, true]) ∧
  (encode .tail9 = [0x29#8] ∧
   (∀ (s : State), s.seeded = true → s.canRead 9 → s.baseReady →
     exec .tail9 s = .next { s with
       acc := ⟨s.acc.a, s.acc.b, s.acc.c + (zext32 (s.data (s.pos.toNat + 8)) <<< 8)⟩,
         upc := .op (if s.fast then .tailwb else .tail8) }) ∧
   issuedOnlyAfter .tail9 [.init, .advance, .tail10] ∧ issuedFirstWhen .tail9 9 [false, true])

/-- O18 (R134, R135, R136, R137). With the working registers seeded and the bytes up to its own readable (and BASE
written if FASTPATH is true, where the successor depends on the path): TAIL8 (code 0x28) adds byte 7 past pos, zero-
extended and shifted left by 24, to b and is followed by TAIL7; TAIL7 (code 0x27) adds byte 6 past pos, zero-
extended and shifted left by 16, to b and is followed by TAIL6; TAIL6 (code 0x26) adds byte 5 past pos, zero-
extended and shifted left by 8, to b and is followed by TAIL5; TAIL5 (code 0x25) adds byte 4 past pos, zero-extended
and shifted left by 0, to b and is followed by TAILWA on the fast path and TAIL4 on the portable path. Everything
else is as before. The dispatch issues each exactly when that many bytes remain; otherwise it is issued only after
the operation above it; TAIL8 is issued only on the portable path. -/
def Obligations.TailBytesGoIntoB : Prop :=
  (encode .tail8 = [0x28#8] ∧
   (∀ (s : State), s.seeded = true → s.canRead 8 →
     exec .tail8 s = .next { s with
       acc := ⟨s.acc.a, s.acc.b + (zext32 (s.data (s.pos.toNat + 7)) <<< 24), s.acc.c⟩, upc := .op .tail7 }) ∧
   issuedOnlyAfter .tail8 [.init, .advance, .tail9] ∧ issuedFirstWhen .tail8 8 [false] ∧ issuedOnlyOn false .tail8) ∧
  (encode .tail7 = [0x27#8] ∧
   (∀ (s : State), s.seeded = true → s.canRead 7 →
     exec .tail7 s = .next { s with
       acc := ⟨s.acc.a, s.acc.b + (zext32 (s.data (s.pos.toNat + 6)) <<< 16), s.acc.c⟩, upc := .op .tail6 }) ∧
   issuedOnlyAfter .tail7 [.init, .advance, .tail8] ∧ issuedFirstWhen .tail7 7 [false, true]) ∧
  (encode .tail6 = [0x26#8] ∧
   (∀ (s : State), s.seeded = true → s.canRead 6 →
     exec .tail6 s = .next { s with
       acc := ⟨s.acc.a, s.acc.b + (zext32 (s.data (s.pos.toNat + 5)) <<< 8), s.acc.c⟩, upc := .op .tail5 }) ∧
   issuedOnlyAfter .tail6 [.init, .advance, .tail7] ∧ issuedFirstWhen .tail6 6 [false, true]) ∧
  (encode .tail5 = [0x25#8] ∧
   (∀ (s : State), s.seeded = true → s.canRead 5 → s.baseReady →
     exec .tail5 s = .next { s with
       acc := ⟨s.acc.a, s.acc.b + zext32 (s.data (s.pos.toNat + 4)), s.acc.c⟩,
         upc := .op (if s.fast then .tailwa else .tail4) }) ∧
   issuedOnlyAfter .tail5 [.init, .advance, .tail6] ∧ issuedFirstWhen .tail5 5 [false, true])

/-- O19 (R138, R139, R140, R141). With the working registers seeded and the bytes up to its own readable (and BASE
written if FASTPATH is true, where the successor depends on the path): TAIL4 (code 0x24) adds byte 3 past pos, zero-
extended and shifted left by 24, to a and is followed by TAIL3; TAIL3 (code 0x23) adds byte 2 past pos, zero-
extended and shifted left by 16, to a and is followed by TAIL2; TAIL2 (code 0x22) adds byte 1 past pos, zero-
extended and shifted left by 8, to a and is followed by TAIL1; TAIL1 (code 0x21) adds byte 0 past pos, zero-extended
and shifted left by 0, to a and is followed by FIN1. Everything else is as before. The dispatch issues each exactly
when that many bytes remain; otherwise it is issued only after the operation above it; TAIL4 is issued only on the
portable path. -/
def Obligations.TailBytesGoIntoA : Prop :=
  (encode .tail4 = [0x24#8] ∧
   (∀ (s : State), s.seeded = true → s.canRead 4 →
     exec .tail4 s = .next { s with
       acc := ⟨s.acc.a + (zext32 (s.data (s.pos.toNat + 3)) <<< 24), s.acc.b, s.acc.c⟩, upc := .op .tail3 }) ∧
   issuedOnlyAfter .tail4 [.init, .advance, .tail5] ∧ issuedFirstWhen .tail4 4 [false] ∧ issuedOnlyOn false .tail4) ∧
  (encode .tail3 = [0x23#8] ∧
   (∀ (s : State), s.seeded = true → s.canRead 3 →
     exec .tail3 s = .next { s with
       acc := ⟨s.acc.a + (zext32 (s.data (s.pos.toNat + 2)) <<< 16), s.acc.b, s.acc.c⟩, upc := .op .tail2 }) ∧
   issuedOnlyAfter .tail3 [.init, .advance, .tail4] ∧ issuedFirstWhen .tail3 3 [false, true]) ∧
  (encode .tail2 = [0x22#8] ∧
   (∀ (s : State), s.seeded = true → s.canRead 2 →
     exec .tail2 s = .next { s with
       acc := ⟨s.acc.a + (zext32 (s.data (s.pos.toNat + 1)) <<< 8), s.acc.b, s.acc.c⟩, upc := .op .tail1 }) ∧
   issuedOnlyAfter .tail2 [.init, .advance, .tail3] ∧ issuedFirstWhen .tail2 2 [false, true]) ∧
  (encode .tail1 = [0x21#8] ∧
   (∀ (s : State), s.seeded = true → s.canRead 1 →
     exec .tail1 s = .next { s with
       acc := ⟨s.acc.a + zext32 (s.data s.pos.toNat), s.acc.b, s.acc.c⟩, upc := .op .fin1 }) ∧
   issuedOnlyAfter .tail1 [.init, .advance, .tail2] ∧ issuedFirstWhen .tail1 1 [false, true])

/-- O20 (R143, R144). TAILWB (code 0x2F) adds the little-endian word of the bytes 4 to 7 past pos to b and is followed
by TAILWA; TAILWA (code 0x2E) adds that of the bytes 0 to 3 to a and is followed by FIN1; everything else is as
before, with the working registers seeded and the bytes readable. With pos + 8 (pos + 4) beyond the extent it
answers no next state. The dispatch issues each exactly when 8 (4) bytes remain on the fast path; otherwise it is
issued only after TAIL9 (after TAIL5 or TAILWB), TAILWB on the fast path only. Where the invariant holds, at TAILWB
(TAILWA) rem is at least 8 (4), the path is the fast one and the word's address, BASE + pos + 4 (BASE + pos), is a
multiple of 4; TAILWB after TAIL9 comes with rem 9 to 11, TAILWA after TAIL5 with rem 5 to 7, and TAILWA after
TAILWB with rem 8 to 11. -/
def Obligations.TailWordsGoIntoBAndA : Prop :=
  (encode .tailwb = [0x2F#8] ∧
   (∀ (s : State), s.seeded = true → s.canRead 8 →
     exec .tailwb s = .next { s with
       acc := ⟨s.acc.a, s.acc.b + le32At s.data (s.pos.toNat + 4), s.acc.c⟩, upc := .op .tailwa }) ∧
   (∀ (s t : State), s.mem.extent < s.pos.toNat + 8 → exec .tailwb s ≠ .next t) ∧
   issuedOnlyAfter .tailwb [.init, .advance, .tail9] ∧ issuedFirstWhen .tailwb 8 [true] ∧ issuedOnlyOn true .tailwb ∧
   (∀ (s : State), s.Inv → s.upc = .op .tailwb →
     8 ≤ s.rem.toNat ∧ s.fast = true ∧ (s.base + (s.pos.toNat + 4)) % 4 = 0) ∧
   (∀ (s t : State), s.Inv → s.upc = .op .tail9 → exec .tail9 s = .next t → t.upc = .op .tailwb →
     9 ≤ t.rem.toNat ∧ t.rem.toNat ≤ 11)) ∧
  (encode .tailwa = [0x2E#8] ∧
   (∀ (s : State), s.seeded = true → s.canRead 4 →
     exec .tailwa s = .next { s with
       acc := ⟨s.acc.a + le32At s.data s.pos.toNat, s.acc.b, s.acc.c⟩, upc := .op .fin1 }) ∧
   (∀ (s t : State), s.mem.extent < s.pos.toNat + 4 → exec .tailwa s ≠ .next t) ∧
   issuedOnlyAfter .tailwa [.init, .advance, .tail5, .tailwb] ∧ issuedFirstWhen .tailwa 4 [true] ∧
   (∀ (s : State), s.Inv → s.upc = .op .tailwa →
     4 ≤ s.rem.toNat ∧ s.fast = true ∧ (s.base + s.pos.toNat) % 4 = 0) ∧
   (∀ (s t : State), s.Inv → s.upc = .op .tail5 → exec .tail5 s = .next t → t.upc = .op .tailwa →
     5 ≤ t.rem.toNat ∧ t.rem.toNat ≤ 7) ∧
   (∀ (s t : State), s.Inv → s.upc = .op .tailwb → exec .tailwb s = .next t →
     t.upc = .op .tailwa ∧ 8 ≤ t.rem.toNat ∧ t.rem.toNat ≤ 11))

/-- O21 (R145). From any state with the working registers seeded, the bytes readable, and BASE written if FASTPATH is
true, the four byte operations answer next states one after the other, the word operation answers a next state, and
the two end states differ at most in upc; for TAILWA and TAIL1 they are equal. -/
def Obligations.WordTailEqualsByteTail : Prop :=
  (∀ (s : State), s.seeded = true → s.canRead 8 → s.baseReady →
    ∃ s₁ s₂ s₃ s₄ w, exec .tail8 s = .next s₁ ∧ exec .tail7 s₁ = .next s₂ ∧ exec .tail6 s₂ = .next s₃ ∧
      exec .tail5 s₃ = .next s₄ ∧ exec .tailwb s = .next w ∧ w = { s₄ with upc := w.upc }) ∧
  (∀ (s : State), s.seeded = true → s.canRead 4 →
    ∃ s₁ s₂ s₃ s₄, exec .tail4 s = .next s₁ ∧ exec .tail3 s₁ = .next s₂ ∧ exec .tail2 s₂ = .next s₃ ∧
      exec .tail1 s₃ = .next s₄ ∧ exec .tailwa s = .next s₄)

/-- O22 (spec/42_tail.md section 4). Whenever an operation of the tail family answers a next state, bits 7:0 of c are as
before; and the whole tail function, for every input, position and remaining length, leaves bits 7:0 of c as they
were. -/
def Obligations.TailLeavesLowByteOfC : Prop :=
  (∀ (i : Instr) (s t : State), i.family = .tail → exec i s = .next t →
    t.acc.c.extractLsb' 0 8 = s.acc.c.extractLsb' 0 8) ∧
  (∀ (data : Nat → Byte) p n x, (tailFunction data p n x).c.extractLsb' 0 8 = x.c.extractLsb' 0 8)

/-- O23 (R162). FIN1 has code 0x31. With the working registers seeded it answers the state in which c is (c ^ b) -
rotl(b, 14), upc is FIN2, and everything else is as before. It is issued only after INIT, ADVANCE, TAIL1, TAILWA.
After INIT or ADVANCE it is issued exactly with rem = 0. For every input of at most 4 bytes, b and c are both K +
LEN before the final round. The register roles rest on decision D6 of the spec (notes/assumptions/12.md). -/
def Obligations.Fin1Result : Prop :=
  encode .fin1 = [0x31#8] ∧
  (∀ (s : State), s.seeded = true →
    exec .fin1 s = .next { s with
      acc := ⟨s.acc.a, s.acc.b, (s.acc.c ^^^ s.acc.b) - rotl s.acc.b 14⟩, upc := .op .fin2 }) ∧
  issuedOnlyAfter .fin1 [.init, .advance, .tail1, .tailwa] ∧
  issuedFirstWhen .fin1 0 [false, true] ∧
  (∀ (tables : RoundTables) (data : Nat → Byte) len, len.toNat ≤ 4 →
    (beforeFinal tables data len).b = (beforeFinal tables data len).c ∧
    (beforeFinal tables data len).c = seedK + len)

/-- O24 (R163). FIN2 has code 0x32. With the working registers seeded it answers the state in which a is (a ^ c) -
rotl(c, 11), upc is FIN3, and everything else is as before. It is issued only after FIN1. The register roles rest on
decision D6 of the spec (notes/assumptions/12.md). -/
def Obligations.Fin2Result : Prop :=
  encode .fin2 = [0x32#8] ∧
  (∀ (s : State), s.seeded = true →
    exec .fin2 s = .next { s with
      acc := ⟨(s.acc.a ^^^ s.acc.c) - rotl s.acc.c 11, s.acc.b, s.acc.c⟩, upc := .op .fin3 }) ∧
  issuedOnlyAfter .fin2 [.fin1]

/-- O25 (R164). FIN3 has code 0x33. With the working registers seeded it answers the state in which b is (b ^ a) -
rotl(a, 25), upc is FIN4, and everything else is as before. It is issued only after FIN2. The register roles rest on
decision D6 of the spec (notes/assumptions/12.md). -/
def Obligations.Fin3Result : Prop :=
  encode .fin3 = [0x33#8] ∧
  (∀ (s : State), s.seeded = true →
    exec .fin3 s = .next { s with
      acc := ⟨s.acc.a, (s.acc.b ^^^ s.acc.a) - rotl s.acc.a 25, s.acc.c⟩, upc := .op .fin4 }) ∧
  issuedOnlyAfter .fin3 [.fin2]

/-- O26 (R165). FIN4 has code 0x34. With the working registers seeded it answers the state in which c is (c ^ b) -
rotl(b, 16), upc is FIN5, and everything else is as before. It is issued only after FIN3. FIN5, FIN6 and RESULT, the
operations after it, do not write c. The register roles rest on decision D6 of the spec (notes/assumptions/12.md). -/
def Obligations.Fin4Result : Prop :=
  encode .fin4 = [0x34#8] ∧
  (∀ (s : State), s.seeded = true →
    exec .fin4 s = .next { s with
      acc := ⟨s.acc.a, s.acc.b, (s.acc.c ^^^ s.acc.b) - rotl s.acc.b 16⟩, upc := .op .fin5 }) ∧
  issuedOnlyAfter .fin4 [.fin3] ∧
  (∀ (i : Instr) (s t : State), i ∈ [Instr.fin5, .fin6, .result] → exec i s = .next t → t.acc.c = s.acc.c)

/-- O27 (R166). FIN5 has code 0x35. With the working registers seeded it answers the state in which a is (a ^ c) -
rotl(c, 4), upc is FIN6, and everything else is as before. It is issued only after FIN4. The register roles rest on
decision D6 of the spec (notes/assumptions/12.md). -/
def Obligations.Fin5Result : Prop :=
  encode .fin5 = [0x35#8] ∧
  (∀ (s : State), s.seeded = true →
    exec .fin5 s = .next { s with
      acc := ⟨(s.acc.a ^^^ s.acc.c) - rotl s.acc.c 4, s.acc.b, s.acc.c⟩, upc := .op .fin6 }) ∧
  issuedOnlyAfter .fin5 [.fin4]

/-- O28 (R167). FIN6 has code 0x36. With the working registers seeded it answers the state in which b is (b ^ a) -
rotl(a, 14), upc is RESULT, and everything else is as before. It is issued only after FIN5. The register roles rest
on decision D6 of the spec (notes/assumptions/12.md). -/
def Obligations.Fin6Result : Prop :=
  encode .fin6 = [0x36#8] ∧
  (∀ (s : State), s.seeded = true →
    exec .fin6 s = .next { s with
      acc := ⟨s.acc.a, (s.acc.b ^^^ s.acc.a) - rotl s.acc.a 14, s.acc.c⟩, upc := .op .result }) ∧
  issuedOnlyAfter .fin6 [.fin5]

/-- O29 (R168). RESULT has code 0x3F. With the working registers seeded it answers the state in which DIGEST is c, all
32 bits, upc is DONE, and everything else is as before; STATUS then reads 2. It is issued only after FIN6. -/
def Obligations.ResultHandsOutTheDigest : Prop :=
  encode .result = [0x3F#8] ∧
  (∀ (s : State), s.seeded = true → exec .result s = .next { s with digest := some s.acc.c, upc := .done }) ∧
  (∀ (s t : State), exec .result s = .next t → statusWord t.upc = 2#32) ∧
  issuedOnlyAfter .result [.fin6]

/-- O30 (spec/00_scope.md section 5). For every word, every count r below 32 and every bit k, bit (k + r) mod 32 of
rotl(x, r) is bit k of x, and rotl(x, 0) is x. -/
def Obligations.RotationMovesEveryBit : Prop :=
  (∀ (x : Word) (r k : Nat), r < 32 → k < 32 → (rotl x r).getLsbD ((k + r) % 32) = x.getLsbD k) ∧ (∀ x, rotl x 0 = x)

/-- O31 (spec/20_memory.md section 2, spec/00_scope.md section 5). Whenever a word read answers, its value is byte off
in bits 7:0, byte off + 1 in bits 15:8, byte off + 2 in bits 23:16 and byte off + 3 in bits 31:24, each equal to
what the byte read at that offset answers. -/
def Obligations.WordReadIsLittleEndian : Prop :=
  ∀ (s : State) off w, readWord s off = some w →
    readByte s off = some (w.extractLsb' 0 8) ∧ readByte s (off + 1) = some (w.extractLsb' 8 8) ∧
    readByte s (off + 2) = some (w.extractLsb' 16 8) ∧ readByte s (off + 3) = some (w.extractLsb' 24 8)

/-- O32 (R61). A byte (word) read answers exactly when off + 1 (off + 4) is at most LEN and at most the readable extent.
Where the invariant holds and upc is at an operation that reads, the end of what it reads, counted from pos, is at
most LEN. -/
def Obligations.ReadsAreAdmitted : Prop :=
  (∀ (s : State) off, (readByte s off).isSome = true ↔ off + 1 ≤ s.len.toNat ∧ off + 1 ≤ s.mem.extent) ∧
  (∀ (s : State) off, (readWord s off).isSome = true ↔ off + 4 ≤ s.len.toNat ∧ off + 4 ≤ s.mem.extent) ∧
  (∀ (s : State) (i : Instr), s.Inv → s.upc = .op i → 0 < (readSpan i).2 → s.pos.toNat + (readSpan i).2 ≤ s.len.toNat)

/-- O33 (spec/20_memory.md section 4, notes/assumptions/6.md). For every operation that reads the input, with the
working registers seeded and the end of what it reads past LEN or past the readable extent, the operation stops with
the fault for an unreadable input and answers no state. That the stop is a named fault is the model's choice
(notes/assumptions/6.md). -/
def Obligations.UnreadableInputHasNoStep : Prop :=
  ∀ (s : State) (i : Instr), s.seeded = true → 0 < (readSpan i).2 → ¬ s.canRead (readSpan i).2 →
    exec i s = .fault .unreadableInput

/-- O34 (R52). Whenever any operation answers a next state, the input is as before, and every offset reads as before;
and a step changes the input only by serving the host's request to put another input in place. -/
def Obligations.InputIsNeverWritten : Prop :=
  (∀ (i : Instr) (s t : State), exec i s = .next t → t.mem = s.mem ∧ ∀ off, t.mem.byteAt off = s.mem.byteAt off) ∧
  (∀ (s t : State), step s = .next t →
    (∀ (bytes : List Byte) (rs : List HostRequest), s.requests ≠ .supply bytes :: rs) → t.mem = s.mem)

/-- O35 (spec/10_state.md sections 1, 2 and 4, spec/42_tail.md section 2, spec/43_final_result.md section 2). Whenever
an operation answers a next state: LEN, BASE, their held marks, the host's requests and the last reply are as
before; pos and rem are as before unless it is INIT or ADVANCE; the working registers' mark is as before unless it
is INIT; DIGEST is as before unless it is RESULT; and a, b, c are each as before unless the read and write table
lists the operation as writing it. -/
def Obligations.OperationFrame : Prop :=
  ∀ (i : Instr) (s t : State), exec i s = .next t →
    (t.len = s.len ∧ t.lenHeld = s.lenHeld ∧ t.base = s.base ∧ t.baseHeld = s.baseHeld ∧
      t.requests = s.requests ∧ t.reply = s.reply) ∧
    (i ≠ .init → i ≠ .advance → t.pos = s.pos ∧ t.rem = s.rem) ∧
    (i ≠ .init → t.seeded = s.seeded) ∧
    (i ≠ .result → t.digest = s.digest) ∧
    (i ∉ writesA → t.acc.a = s.acc.a) ∧ (i ∉ writesB → t.acc.b = s.acc.b) ∧ (i ∉ writesC → t.acc.c = s.acc.c)

/-- O36 (spec/10_state.md sections 2 and 4, spec/20_memory.md section 4, spec/44_sequencer_and_function.md section 1).
If the invariant holds (the input is in canonical form; BASE is below 2 to the XADDR; DIGEST holds a value exactly
at DONE; at every operation but INIT the working registers and LEN hold values, pos + rem = LEN without wrapping,
pos is a multiple of 12, and rem and the path are those with which the sequencer issues that operation) and a step
answers a next state, then the invariant holds there. -/
def Obligations.StepKeepsTheInvariant : Prop :=
  ∀ (s t : State), s.Inv → step s = .next t → t.Inv

/-- O37 (spec/10_state.md section 7). The state after reset meets the invariant that every step keeps. -/
def Obligations.InvariantAtReset : Prop :=
  State.reset.Inv

/-- O38 (R188). From any state at IDLE or DONE that is ready to run (LEN written, BASE written if FASTPATH is true, the
input at least LEN bytes long) and whose one pending request is the write of CTRL.START, one step for the request
and as many steps as the run has operations lead to a state at DONE whose DIGEST is hash_bytes of the input and LEN;
LEN, BASE and the input are as before, and no request is pending. The register roles of the two rounds rest on
decisions D5 and D6. -/
def Obligations.RunComputesHashBytes : Prop :=
  ∀ (s : State), s.upc.busy = false → s.ReadyToRun → s.requests = [.write .ctrl 1] →
    ∃ t, stepsTo (1 + runLength s.len.toNat s.fast) s t ∧ t.upc = .done ∧ t.digest = some (hashBytes s.data s.len) ∧
      t.len = s.len ∧ t.base = s.base ∧ t.mem = s.mem ∧ t.requests = []

/-- O39 (spec/44_sequencer_and_function.md section 4, spec/10_state.md section 7). Two states at IDLE or DONE, both
ready to run with the write of CTRL.START pending, with the same LEN and the same input bytes below LEN, and
otherwise arbitrary (accumulators, pos, rem, BASE and so the read path, readable extent, old DIGEST), both reach
DONE after one step for the request and as many steps as their own run has operations, with the same DIGEST. -/
def Obligations.DigestDependsOnDataAndLengthOnly : Prop :=
  ∀ (s₁ s₂ : State), s₁.upc.busy = false → s₂.upc.busy = false → s₁.ReadyToRun → s₂.ReadyToRun →
    s₁.requests = [.write .ctrl 1] → s₂.requests = [.write .ctrl 1] → s₁.len = s₂.len →
    (∀ off, off < s₁.len.toNat → s₁.mem.byteAt off = s₂.mem.byteAt off) →
    ∃ t₁ t₂, stepsTo (1 + runLength s₁.len.toNat s₁.fast) s₁ t₁ ∧ stepsTo (1 + runLength s₂.len.toNat s₂.fast) s₂ t₂ ∧
      t₁.upc = .done ∧ t₂.upc = .done ∧ t₁.digest.isSome = true ∧ t₁.digest = t₂.digest

/-- O40 (spec/30_encoding.md section 6, spec/44_sequencer_and_function.md section 2, notes/assumptions/25.md,
notes/assumptions/26.md). From any state with upc at INIT that is ready to run, handing the block the codes of a
stream of operations ends at DONE with the digest hash_bytes if the stream is the canonical one for LEN and the
path, and is refused with not_a_run for every other stream (for a stream that is canonical for another LEN or path
this name is the model's choice, notes/assumptions/25.md). In a block that is not at INIT every stream of operations
is refused with not_a_run (for the canonical ones the model's choice, notes/assumptions/26.md). -/
def Obligations.OnlyTheCanonicalStreamRuns : Prop :=
  (∀ (s : State) (ops : List Instr), s.upc = .op .init → s.ReadyToRun →
    (ops = hashStream s.len.toNat s.fast →
      ∃ t, runStream (encodeAll ops) s = .next t ∧ t.upc = .done ∧ t.digest = some (hashBytes s.data s.len)) ∧
    (ops ≠ hashStream s.len.toNat s.fast → runStream (encodeAll ops) s = .refused .notARun)) ∧
  (∀ (s : State) (ops : List Instr), s.upc ≠ .op .init → runStream (encodeAll ops) s = .refused .notARun)

/-- O41 (spec/44_sequencer_and_function.md section 2). The canonical stream for a length and a path has 8 + 8q + t
operations on the portable path and 8 + 8q + tf(t) on the fast path; the largest run, on the portable path, has
2863311539. -/
def Obligations.RunLengthFormula : Prop :=
  (∀ len, (hashStream len false).length = 8 + 8 * (len / 12) + len % 12) ∧
  (∀ len, (hashStream len true).length =
    8 + 8 * (len / 12) + [0, 1, 2, 3, 1, 2, 3, 4, 2, 3, 4, 5].getD (len % 12) 0) ∧
  runLength (2 ^ 32 - 1) false = 2863311539

/-- O42 (spec/41_bulk_mix.md sections 3 and 5, spec/43_final_result.md sections 1 and 4, notes/assumptions/12.md). For
all round tables, applying what MIX1 to MIX6 apply, in order, gives the mix round of the table, and applying what
FIN1 to FIN6 apply, in order, gives the final round of the table, all its rows (that FIN6 takes the rows after the
sixth is the model's choice, notes/assumptions/12.md, and the default table has none); and with the default tables
the two rounds are the functions the spec lists. -/
def Obligations.MixRoundMatchesItsListing : Prop :=
  (∀ (tables : RoundTables) (x : Acc),
    (List.finRange 6).foldl (fun y k => mixStep tables.mix[k] y) x = applyMix tables x) ∧
  (∀ (tables : RoundTables) (x : Acc),
    (List.finRange 6).foldl (fun y k => finalSteps (finalRows tables k) y) x = applyFinal tables x) ∧
  (∀ (x : Acc), applyMix ⟨defaultMixTable, defaultFinalTable⟩ x = mixFunction x) ∧
  (∀ (x : Acc), applyFinal ⟨defaultMixTable, defaultFinalTable⟩ x = finalFunction x)

/-- O43 (R122). For each of the six steps of the block's mix table, with T its target, S the register subtracted and V
the third, the step is undone by S <- S - V; T <- T ^ rotl(S, r); T <- T + S, and is a bijection on triples; so is
the round; (0, 0, 0) is a fixed point of the round; and INIT with LEN = 0x618CA9B0 reaches it. -/
def Obligations.MixStepsAreBijections : Prop :=
  (∀ (k : Fin 6) (x : Acc),
    let r := roundTables.mix[k]
    let y := mixStep r x
    let y₁ := y.set r.addDst (y.get r.addDst - y.get r.addSrc)
    let y₂ := y₁.set r.target (y₁.get r.target ^^^ rotl (y₁.get r.rotSrc) r.amount)
    y₂.set r.target (y₂.get r.target + y₂.get r.subSrc) = x) ∧
  (∀ (k : Fin 6), Function.Bijective (mixStep roundTables.mix[k])) ∧ Function.Bijective (applyMix roundTables) ∧
  applyMix roundTables ⟨0#32, 0#32, 0#32⟩ = ⟨0#32, 0#32, 0#32⟩ ∧
  (∀ (s t : State), s.len = 0x618CA9B0#32 → exec .init s = .next t → t.acc = ⟨0#32, 0#32, 0#32⟩)

/-- O44 (R171). For each step of the block's final table, with T its target and X the register XORed in and rotated, the
step is undone by T <- T + rotl(X, r); T <- T ^ X, and is a bijection on triples; so is the round; and (0, 0, 0) is
a fixed point. -/
def Obligations.FinalStepsAreBijections : Prop :=
  (∀ r ∈ roundTables.final, ∀ (x : Acc),
    let y := finalStep r x
    let y₁ := y.set r.target (y.get r.target + rotl (y.get r.rotSrc) r.amount)
    y₁.set r.target (y₁.get r.target ^^^ y₁.get r.xorSrc) = x) ∧
  (∀ r ∈ roundTables.final, Function.Bijective (finalStep r)) ∧ Function.Bijective (applyFinal roundTables) ∧
  applyFinal roundTables ⟨0#32, 0#32, 0#32⟩ = ⟨0#32, 0#32, 0#32⟩

/-- O45 (spec/43_final_result.md section 4). From any state with the working registers seeded, FIN4, FIN5, FIN6 and
RESULT answer next states one after the other, and the digest of the last is c as FIN4 left it. -/
def Obligations.DigestIsFixedAfterFin4 : Prop :=
  ∀ (s : State), s.seeded = true →
    ∃ t₄ t₅ t₆ t, exec .fin4 s = .next t₄ ∧ exec .fin5 t₄ = .next t₅ ∧ exec .fin6 t₅ = .next t₆ ∧
      exec .result t₆ = .next t ∧ t.digest = some t₄.acc.c

/-- O46 (spec/44_sequencer_and_function.md section 4, notes/assumptions/12.md). hash_bytes of length 0 is 0x92384F41,
whatever the bytes; it rests on decision D6 of the spec (the roles of the final round). -/
def Obligations.EmptyInputDigest : Prop :=
  ∀ (data : Nat → Byte), hashBytes data 0#32 = 0x92384F41#32

/-- O47 (R59). Where the invariant holds, BASE mod 4 = 0 and FASTPATH is true: at ABSORB the addresses BASE + pos, BASE
+ pos + 4 and BASE + pos + 8, at TAILWB BASE + pos + 4, and at TAILWA BASE + pos are multiples of 4; and upc is at
TAILWB or TAILWA only where BASE mod 4 = 0 and FASTPATH is true. -/
def Obligations.AlignedWordReads : Prop :=
  (∀ (s : State), s.Inv → s.fast = true →
    (s.upc = .op .absorb → (s.base + s.pos.toNat) % 4 = 0 ∧ (s.base + s.pos.toNat + 4) % 4 = 0 ∧
      (s.base + s.pos.toNat + 8) % 4 = 0) ∧
    (s.upc = .op .tailwb → (s.base + s.pos.toNat + 4) % 4 = 0) ∧
    (s.upc = .op .tailwa → (s.base + s.pos.toNat) % 4 = 0)) ∧
  (∀ (s : State), s.Inv → s.upc = .op .tailwb ∨ s.upc = .op .tailwa → s.fast = true)

/-- O48 (spec/10_state.md section 4, notes/assumptions/7.md). At IDLE or DONE a pending write of CTRL with the value 1
leads to upc = INIT with DIGEST holding no value; with the value 0 it changes nothing; with any 32-bit value that
has one of bits 31:1 set it is refused with reserved_ctrl_bits. A read of CTRL returns 0 in any state. Each time the
request is removed and everything else is as before. While upc is at an operation a write of CTRL with any value is
refused with write_while_busy (for a value with one of bits 31:1 set, which the spec refuses under two names, this
name is the model's choice, notes/assumptions/7.md). -/
def Obligations.StartBeginsARun : Prop :=
  (∀ (s : State) (rs : List HostRequest), s.upc.busy = false → s.requests = .write .ctrl 1 :: rs →
    step s = .next { s with requests := rs, upc := .op .init, digest := none }) ∧
  (∀ (s : State) (rs : List HostRequest), s.upc.busy = false → s.requests = .write .ctrl 0 :: rs →
    step s = .next { s with requests := rs }) ∧
  (∀ (s : State) (rs : List HostRequest) v, s.upc.busy = false → 2 ≤ v → v < 2 ^ 32 →
    s.requests = .write .ctrl v :: rs → step s = .refused .reservedCtrlBits) ∧
  (∀ (s : State) (rs : List HostRequest), s.requests = .read .ctrl :: rs →
    step s = .next { s with requests := rs, reply := some 0 }) ∧
  (∀ (s : State) (i : Instr) (rs : List HostRequest) v, s.upc = .op i → s.requests = .write .ctrl v :: rs →
    step s = .refused .writeWhileBusy)

/-- O49 (spec/10_state.md section 4, notes/assumptions/7.md). While upc is at an operation, a pending write of LEN, BASE
or CTRL with any value is refused with write_while_busy (for CTRL with one of bits 31:1 set, which the spec refuses
under two names, this name is the model's choice, notes/assumptions/7.md); a pending read of STATUS, of a written
LEN or of a written BASE returns the register and changes nothing else but the removed request and the reply. -/
def Obligations.WritesWhileBusyAreRefused : Prop :=
  (∀ (s : State) (i : Instr) r v (rs : List HostRequest), s.upc = .op i → r ∈ [HostReg.len, .base, .ctrl] →
    s.requests = .write r v :: rs →
    step s = .refused .writeWhileBusy) ∧
  (∀ (s : State) (i : Instr) (rs : List HostRequest), s.upc = .op i → s.requests = .read .status :: rs →
    step s = .next { s with requests := rs, reply := some 1 }) ∧
  (∀ (s : State) (i : Instr) (rs : List HostRequest), s.upc = .op i → s.lenHeld = true →
    s.requests = .read .len :: rs →
    step s = .next { s with requests := rs, reply := some s.len.toNat }) ∧
  (∀ (s : State) (i : Instr) (rs : List HostRequest), s.upc = .op i → s.baseHeld = true →
    s.requests = .read .base :: rs →
    step s = .next { s with requests := rs, reply := some s.base })

/-- O50 (spec/60_exceptions.md section 4, spec/44_sequencer_and_function.md section 1, notes/assumptions/6.md,
notes/assumptions/17.md). While upc is at an operation, a step that serves any request other than reset and an
operation code and answers a next state changes nothing but the pending requests and the reply (that a code can be
handed over at all is the model's own, notes/assumptions/17.md). At IDLE or DONE the sequencer has no step (that
this is the named fault noStep is the model's choice, notes/assumptions/6.md). -/
def Obligations.HostMovesNeverDisturbARun : Prop :=
  (∀ (s t : State) (i : Instr) r (rs : List HostRequest), s.upc = .op i → s.requests = r :: rs → r ≠ .reset →
    (∀ (code : Byte), r ≠ .issue code) → step s = .next t →
    t = { s with requests := rs, reply := t.reply }) ∧
  (∀ (s : State), s.upc.busy = false → sequencerStep s = .fault .noStep)

/-- O51 (R34). In every state a pending read of STATUS returns 0 at IDLE, 1 at any of the 29 operations and 2 at DONE;
bit 0 of STATUS is 1 exactly at an operation, bit 1 exactly at DONE, and bits 31:2 are 0. -/
def Obligations.StatusIsAFunctionOfUpc : Prop :=
  (∀ (s : State) (rs : List HostRequest), s.requests = .read .status :: rs →
    (s.upc = .idle → step s = .next { s with requests := rs, reply := some 0 }) ∧
    (∀ (i : Instr), s.upc = .op i → step s = .next { s with requests := rs, reply := some 1 }) ∧
    (s.upc = .done → step s = .next { s with requests := rs, reply := some 2 })) ∧
  (∀ u, ((statusWord u).getLsbD 0 = true ↔ ∃ i, u = .op i) ∧ ((statusWord u).getLsbD 1 = true ↔ u = .done) ∧
    statusWord u >>> 2 = 0#32)

/-- O52 (spec/10_state.md section 4, spec/60_exceptions.md section 4). At IDLE or DONE, a pending write of LEN with any
32-bit value, followed by a read of LEN, leads in two steps to the state in which LEN holds that value, the reply is
that value, and everything else is as before; likewise BASE with any value below 2 to the XADDR. -/
def Obligations.LengthAndBaseReadBack : Prop :=
  (∀ (s : State) (rs : List HostRequest) v, s.upc.busy = false → v < 2 ^ 32 →
    s.requests = .write .len v :: .read .len :: rs →
    stepsTo 2 s { s with len := BitVec.ofNat 32 v, lenHeld := true, requests := rs, reply := some v }) ∧
  (∀ (s : State) (rs : List HostRequest) v, s.upc.busy = false → v < 2 ^ Config.xaddr →
    s.requests = .write .base v :: .read .base :: rs →
    stepsTo 2 s { s with base := v, baseHeld := true, requests := rs, reply := some v })

/-- O53 (R35). RESULT leaves c in DIGEST. A read of DIGEST anywhere but at DONE is refused with digest_not_ready. Where
the invariant holds: at DONE DIGEST holds a value and a read returns it; after reset and everywhere but at DONE it
holds none; and a step from DONE either stays at DONE with the same DIGEST, or is a START or a reset and leaves
DIGEST without a value. -/
def Obligations.DigestIsReadOnlyAtDone : Prop :=
  (∀ (s t : State), exec .result s = .next t → t.digest = some s.acc.c) ∧
  (∀ (s : State) (rs : List HostRequest), s.upc ≠ .done → s.requests = .read .digest :: rs →
    step s = .refused .digestNotReady) ∧
  (∀ (s : State) (rs : List HostRequest), s.Inv → s.upc = .done → s.requests = .read .digest :: rs →
    ∃ d, s.digest = some d ∧ step s = .next { s with requests := rs, reply := some d.toNat }) ∧
  State.reset.digest = none ∧ (∀ (s : State), s.Inv → s.upc ≠ .done → s.digest = none) ∧
  (∀ (s t : State), s.Inv → s.upc = .done → step s = .next t →
    (t.upc = .done ∧ t.digest = s.digest) ∨
    (t.digest = none ∧ ∃ r rs, s.requests = r :: rs ∧
      ((r = .reset ∧ t.upc = .idle) ∨ ((∃ v, r = .write .ctrl v) ∧ t.upc = .op .init))))

/-- O54 (R41). With LEN unwritten, INIT and the host's read of LEN are refused with read_of_unwritten_state; with BASE
unwritten, the host's read of BASE is; with BASE unwritten and FASTPATH true, the sequencer's reads of it (after
TAIL9 and TAIL5, and after INIT and ADVANCE with 8 or 4 bytes left) are; with the working registers unwritten, every
operation but INIT is, and INIT's outcome does not depend on what is stored in them; a read of DIGEST while it holds
no value is refused with digest_not_ready. With FASTPATH false, changing BASE or its mark changes nothing in what
any operation does. -/
def Obligations.UnwrittenReadsAreRefused : Prop :=
  (∀ (s : State), s.lenHeld = false → exec .init s = .refused .readOfUnwrittenState) ∧
  (∀ (s : State) (rs : List HostRequest), s.lenHeld = false → s.requests = .read .len :: rs →
    step s = .refused .readOfUnwrittenState) ∧
  (∀ (s : State) (rs : List HostRequest), s.baseHeld = false → s.requests = .read .base :: rs →
    step s = .refused .readOfUnwrittenState) ∧
  (∀ (s : State), Config.fastpath = true → s.baseHeld = false →
    (s.lenHeld = true → s.len.toNat = 8 ∨ s.len.toNat = 4 → exec .init s = .refused .readOfUnwrittenState) ∧
    (s.seeded = true → s.rem.toNat = 20 ∨ s.rem.toNat = 16 → exec .advance s = .refused .readOfUnwrittenState) ∧
    (s.seeded = true → s.canRead 9 → exec .tail9 s = .refused .readOfUnwrittenState) ∧
    (s.seeded = true → s.canRead 5 → exec .tail5 s = .refused .readOfUnwrittenState)) ∧
  (∀ (s : State) (i : Instr), s.seeded = false → i ≠ .init → exec i s = .refused .readOfUnwrittenState) ∧
  (∀ (s : State) x p r, exec .init { s with acc := x, pos := p, rem := r } = exec .init s) ∧
  (∀ (s : State) (rs : List HostRequest), s.digest = none → s.requests = .read .digest :: rs →
    step s = .refused .digestNotReady) ∧
  (Config.fastpath = false → ∀ (i : Instr) (s t : State) (base : Nat) (held : Bool), exec i s = .next t →
    exec i { s with base := base, baseHeld := held } = .next { t with base := base, baseHeld := held })

/-- O55 (spec/10_state.md section 7, spec/70_reset_and_hazards.md section 1, notes/assumptions/1.md,
notes/assumptions/19.md). The state after reset has upc IDLE, STATUS 0, and no register that holds a value; and in
every state, busy or not, a pending reset leads to exactly that state of the block, with no reply and with the input
and the other pending requests as they were, after which a read of CTRL returns 0. That the input and the other
requests stay and the reply is cleared is the model's choice (notes/assumptions/19.md), and so are the zeros stored
beside the clear marks, which the equality names (notes/assumptions/1.md). -/
def Obligations.ResetReturnsToIdle : Prop :=
  (State.reset.upc = .idle ∧ statusWord State.reset.upc = 0#32 ∧ State.reset.seeded = false ∧
    State.reset.lenHeld = false ∧ State.reset.baseHeld = false ∧ State.reset.digest = none ∧
    State.reset.reply = none) ∧
  (∀ (s : State) (rs : List HostRequest), s.requests = .reset :: rs →
    step s = .next { State.reset with mem := s.mem, requests := rs }) ∧
  (∀ (s : State) (rs : List HostRequest), s.requests = .reset :: .read .ctrl :: rs →
    stepsTo 2 s { State.reset with mem := s.mem, requests := rs, reply := some 0 })

/-- O56 (spec/20_memory.md section 1, spec/70_reset_and_hazards.md section 2, notes/assumptions/4.md,
notes/assumptions/10.md). At IDLE or DONE, a pending request to put bytes in place leads to the state in which
exactly the offsets below their number are readable, each reads as the byte given, the input is in canonical form,
and everything else is as before. While busy the request is refused (the model's choice, notes/assumptions/10.md). -/
def Obligations.SuppliedInputReadsBack : Prop :=
  (∀ (s : State) (bytes : List Byte) (rs : List HostRequest), s.upc.busy = false → s.requests = .supply bytes :: rs →
    ∃ m, step s = .next { s with mem := m, requests := rs } ∧ m.extent = bytes.length ∧ m.wf = true ∧
      ∀ off, m.byteAt off = bytes[off]?) ∧
  (∀ (s : State) (bytes : List Byte) (rs : List HostRequest) (i : Instr), s.upc = .op i →
    s.requests = .supply bytes :: rs → step s = .refused .inputFixedDuringRun)

/-- O57 (spec/30_encoding.md section 6, notes/assumptions/17.md). Whenever a pending operation code decodes to an
operation and upc is not at that operation (at IDLE, at DONE, or at another operation), the step is refused with
not_a_run. The spec speaks of streams; that a single code out of place is refused so is the model's choice
(notes/assumptions/17.md). -/
def Obligations.CodesOutOfPlaceAreRefused : Prop :=
  ∀ (s : State) (code : Byte) (rs : List HostRequest) (i : Instr), s.requests = .issue code :: rs →
    decode [code] = .ok (i, []) → s.upc ≠ .op i →
    step s = .refused .notARun

/-- O58 (R24, R25). Whenever an operation answers a next state: after INIT pos is 0 and rem is LEN; after ADVANCE pos is
pos + 12 and rem is rem - 12; after any other operation both are as before. With the working registers seeded and
BASE written if FASTPATH is true, an operation that reads the input (ABSORB, every tail operation) answers a next
state exactly when the end of what it reads, counted from pos, is inside LEN and inside the readable extent. After
INIT and ADVANCE the sequencer's choice depends on rem and the path alone. -/
def Obligations.RunRegistersSurvive : Prop :=
  (∀ (s t : State), exec .init s = .next t → t.pos = 0#32 ∧ t.rem = s.len) ∧
  (∀ (s t : State), exec .advance s = .next t → t.pos = s.pos + 12#32 ∧ t.rem = s.rem - 12#32) ∧
  (∀ (i : Instr) (s t : State), i ≠ .init → i ≠ .advance → exec i s = .next t → t.pos = s.pos ∧ t.rem = s.rem) ∧
  (∀ (i : Instr) (s : State), s.seeded = true → 0 < (readSpan i).2 → s.baseReady →
    ((∃ t, exec i s = .next t) ↔ s.canRead (readSpan i).2)) ∧
  (∀ (i j : Instr) (s₁ s₂ t₁ t₂ : State), (i = .init ∨ i = .advance) → (j = .init ∨ j = .advance) →
    exec i s₁ = .next t₁ → exec j s₂ = .next t₂ → t₁.rem = t₂.rem → t₁.fast = t₂.fast → t₁.upc = t₂.upc)

/-- O59 (R40, R240). The state after reset has upc IDLE, STATUS 0, and no value in the working registers, LEN, BASE and
DIGEST; in every state, busy or not, a pending reset leads to a state that has the same; two states with the same
input and the same requests, reset first, step to the same state, whatever run either was in; and a read of CTRL
after the reset returns 0. -/
def Obligations.ResetLeavesNoValue : Prop :=
  (State.reset.upc = .idle ∧ statusWord State.reset.upc = 0#32 ∧ State.reset.seeded = false ∧
    State.reset.lenHeld = false ∧ State.reset.baseHeld = false ∧ State.reset.digest = none) ∧
  (∀ (s : State) (rs : List HostRequest), s.requests = .reset :: rs →
    ∃ t, step s = .next t ∧ t.upc = .idle ∧ statusWord t.upc = 0#32 ∧ t.seeded = false ∧ t.lenHeld = false ∧
      t.baseHeld = false ∧ t.digest = none) ∧
  (∀ (s₁ s₂ : State) (rs : List HostRequest), s₁.requests = .reset :: rs → s₂.requests = .reset :: rs →
    s₁.mem = s₂.mem → step s₁ = step s₂) ∧
  (∀ (s : State) (rs : List HostRequest), s.requests = .reset :: .read .ctrl :: rs →
    ∃ t, stepsTo 2 s t ∧ t.reply = some 0)

/-- O60 (spec/10_state.md section 4, notes/assumptions/8.md). In every state a pending host write of STATUS or DIGEST,
with any value, is refused with writeToReadOnly. The spec calls both read only and gives such a write no effect; the
stop is the model's (notes/assumptions/8.md). -/
def Obligations.WritesToReadOnlyRegistersAreRefused : Prop :=
  ∀ (s : State) (r : HostReg) v (rs : List HostRequest), r = .status ∨ r = .digest → s.requests = .write r v :: rs →
    step s = .refused .writeToReadOnly
end

