-- ==== Sys2Proof/Tests/Slice0.lean ====
section
/-! SUPPORT. The model's own tests. Expected values are those of spec/95_test_vectors.md and of the rules' examples, never the
model's own answers. The second half has the witnesses: for each statement with hypotheses, a concrete state and operands
that meet them. -/

namespace Sys2Proof.Tests

open Sys2Proof.Machine

/-! What a test looks at in an outcome. -/

def accOf : Outcome → Option Acc
  | .next t => some t.acc
  | _ => none

def upcOf : Outcome → Option Upc
  | .next t => some t.upc
  | _ => none

def cursorOf : Outcome → Option (Nat × Nat)
  | .next t => some (t.pos.toNat, t.rem.toNat)
  | _ => none

def digestOf : Outcome → Option Word
  | .next t => t.digest
  | _ => none

def replyOf : Outcome → Option Nat
  | .next t => t.reply
  | _ => none

def stopOf : Outcome → Option (Fault ⊕ Refusal)
  | .next _ => none
  | .fault r => some (.inl r)
  | .refused r => some (.inr r)

/-! The states the tests start from. -/

/-- The bytes `01`, `02`, ... of spec/95_test_vectors.md. -/
def countUp (n : Nat) : List Byte := (List.range n).map fun k => BitVec.ofNat 8 (k + 1)

/-- At operation `i` with the whole input left, the working registers seeded, and an unaligned `BASE`, so that the read
path is the portable one whatever `FASTPATH` is. -/
def atOp (i : Instr) (bytes : List Byte) (x : Acc) : State :=
  { State.reset with
    acc := x, rem := BitVec.ofNat 32 bytes.length, seeded := true, upc := .op i,
    len := BitVec.ofNat 32 bytes.length, lenHeld := true, base := 0x2001, baseHeld := true,
    mem := Memory.ofBytes bytes }

/-- The same with an aligned `BASE`. -/
def alignedAt (i : Instr) (bytes : List Byte) (x : Acc) : State := { atOp i bytes x with base := 0x2000 }

/-- About to run INIT on an input. -/
def atInit (bytes : List Byte) : State := { atOp .init bytes ⟨0#32, 0#32, 0#32⟩ with seeded := false }

/-- With one host request pending. -/
def asked (r : HostRequest) (s : State) : State := s.setRequests [r]

/-! Decoding (R82, R85): words written bit by bit, `grp` then `idx`. -/

theorem test_codes_decode :
    ∀ row ∈
      [ (0b0000#4 ++ 0b0000#4, Instr.init), (0b0001#4 ++ 0b0000#4, .absorb), (0b0001#4 ++ 0b0001#4, .mix1),
        (0b0001#4 ++ 0b0010#4, .mix2), (0b0001#4 ++ 0b0011#4, .mix3), (0b0001#4 ++ 0b0100#4, .mix4),
        (0b0001#4 ++ 0b0101#4, .mix5), (0b0001#4 ++ 0b0110#4, .mix6), (0b0001#4 ++ 0b1111#4, .advance),
        (0b0010#4 ++ 0b0001#4, .tail1), (0b0010#4 ++ 0b0010#4, .tail2), (0b0010#4 ++ 0b0011#4, .tail3),
        (0b0010#4 ++ 0b0100#4, .tail4), (0b0010#4 ++ 0b0101#4, .tail5), (0b0010#4 ++ 0b0110#4, .tail6),
        (0b0010#4 ++ 0b0111#4, .tail7), (0b0010#4 ++ 0b1000#4, .tail8), (0b0010#4 ++ 0b1001#4, .tail9),
        (0b0010#4 ++ 0b1010#4, .tail10), (0b0010#4 ++ 0b1011#4, .tail11), (0b0010#4 ++ 0b1110#4, .tailwa),
        (0b0010#4 ++ 0b1111#4, .tailwb), (0b0011#4 ++ 0b0001#4, .fin1), (0b0011#4 ++ 0b0010#4, .fin2),
        (0b0011#4 ++ 0b0011#4, .fin3), (0b0011#4 ++ 0b0100#4, .fin4), (0b0011#4 ++ 0b0101#4, .fin5),
        (0b0011#4 ++ 0b0110#4, .fin6), (0b0011#4 ++ 0b1111#4, .result) ],
      decodeCode row.1 = some row.2 := by decide

theorem test_reserved_codes : (decodeCode 0x20#8, decodeCode 0x17#8, decodeCode 0x37#8, decodeCode 0xFF#8) =
    (none, none, none, none) := by decide

theorem test_decode_keeps_rest : (match decode [0x3F#8, 0x20#8] with
    | .ok (i, rest) => some (i, rest)
    | .error _ => none) = some (.result, [0x20#8]) := by decide

theorem test_decode_nothing : (match decode [] with
    | .ok _ => none
    | .error e => some e) = some DecodeError.empty := by decide

theorem test_table_word : (decodeTableWord 8 0x2B, decodeTableWord 8 0x20, decodeTableWord 16 0x2B) =
    (some .tail11, none, none) := by decide

/-! Well-formedness: a term each check refuses. Every term of Instr is well formed (R83). -/

theorem test_wf_operations : Instr.all.all (fun i => i.wf) = true := by decide
theorem test_wf_tail : (Pseudo.tail 11).wf = true ∧ (Pseudo.tail 12).wf = false := by decide
theorem test_wf_tailf : (Pseudo.tailf 11).wf = true ∧ (Pseudo.tailf 12).wf = false := by decide
theorem test_wf_hash : (Pseudo.hash (2 ^ 32 - 1)).wf = true ∧ (Pseudo.hash (2 ^ 32)).wf = false := by decide

/-- Program P1 is a stream of R183; a stream without INIT, without RESULT, or with a skipped tail byte is none. -/
theorem test_wf_streams :
    streamWf (.init :: finalRound ++ [.result]) = true ∧ streamWf (finalRound ++ [.result]) = false ∧
    streamWf (.init :: finalRound) = false ∧ streamWf ([.init, .tail2] ++ finalRound ++ [.result]) = false := by decide

/-! Streams (spec/95_test_vectors.md section 3.9). -/

theorem test_stream_13 : encodeAll (hashStream 13 false) =
    [0x00#8, 0x10#8, 0x11#8, 0x12#8, 0x13#8, 0x14#8, 0x15#8, 0x16#8, 0x1F#8, 0x21#8,
     0x31#8, 0x32#8, 0x33#8, 0x34#8, 0x35#8, 0x36#8, 0x3F#8] := by decide

theorem test_stream_11_fast : encodeAll (hashStream 11 true) =
    [0x00#8, 0x2B#8, 0x2A#8, 0x29#8, 0x2F#8, 0x2E#8, 0x31#8, 0x32#8, 0x33#8, 0x34#8, 0x35#8, 0x36#8, 0x3F#8] := by decide

theorem test_run_lengths : [runLength 0 false, runLength 4 true, runLength 11 false, runLength 11 true, runLength 25 true] =
    [8, 9, 19, 13, 25] := by decide

/-- Program P2 as text (R86, R87), with a comment and a blank line. -/
theorem test_assemble : assemble 3 "INIT # seed\n\nTAIL 3\nFINAL\nRESULT\n".toList =
    some [0x00#8, 0x23#8, 0x22#8, 0x21#8, 0x31#8, 0x32#8, 0x33#8, 0x34#8, 0x35#8, 0x36#8, 0x3F#8] := by decide

theorem test_assemble_refuses : assemble 3 "TAIL 12".toList = none ∧ assemble 3 "MIX7".toList = none := by decide

/-! Primitives (spec/95_test_vectors.md section 2). -/

theorem test_rotl :
    [rotl 0x80000000#32 1, rotl 0x00000001#32 31, rotl 0x12345678#32 4, rotl 0x12345678#32 16, rotl 0x12345678#32 25] =
    [0x00000001#32, 0x80000000#32, 0x23456781#32, 0x56781234#32, 0xF02468AC#32] := by decide

theorem test_rotl_amounts :
    [rotl 0xDEADBEEF#32 6, rotl 0xDEADBEEF#32 8, rotl 0xDEADBEEF#32 11, rotl 0xDEADBEEF#32 14, rotl 0xDEADBEEF#32 19] =
    [0xAB6FBBF7#32, 0xADBEEFDE#32, 0x6DF77EF5#32, 0x6FBBF7AB#32, 0xF77EF56D#32] := by decide

theorem test_place_byte : placeByte 0xFF#8 24 = 0xFF000000#32 := by decide
theorem test_compose_word : composeWord 0x01#8 0x02#8 0x03#8 0x04#8 = 0x04030201#32 ∧
    composeWord 0xFF#8 0x00#8 0x00#8 0x80#8 = 0x800000FF#32 := by decide
theorem test_seed_constant : seedK = 0x9E735650#32 := by decide

/-- The table of R130 against the formula of R84. -/
theorem test_tail_formula :
    (List.range 11).map (fun i => (tailReg i, tailShift i)) =
    [ (.a, 0), (.a, 8), (.a, 16), (.a, 24), (.b, 0), (.b, 8), (.b, 16), (.b, 24), (.c, 8), (.c, 16), (.c, 24) ] := by decide

/-! One step of each operation (spec/95_test_vectors.md sections 3.1 to 3.8). -/

theorem test_init : accOf (exec .init (atInit (countUp 3))) = some ⟨0x9E735653#32, 0x9E735653#32, 0x9E735653#32⟩ ∧
    cursorOf (exec .init (atInit (countUp 3))) = some (0, 3) := by decide

/-- The sum is exactly `2 ^ 32` (R100). -/
theorem test_init_wraps : accOf (exec .init { atInit [] with len := 0x618CA9B0#32 }) = some ⟨0#32, 0#32, 0#32⟩ := by decide

theorem test_absorb :
    accOf (exec .absorb (atOp .absorb (countUp 12) ⟨0x9E73565D#32, 0x9E73565D#32, 0x9E73565D#32⟩)) =
    some ⟨0xA276585E#32, 0xA67A5C62#32, 0xAA7E6066#32⟩ := by decide

theorem test_absorb_wraps :
    accOf (exec .absorb (atOp .absorb
      [0x01#8, 0#8, 0#8, 0#8, 0#8, 0#8, 0#8, 0#8, 0#8, 0#8, 0#8, 0x80#8] ⟨0xFFFFFFFF#32, 0#32, 0x80000000#32⟩)) =
    some ⟨0#32, 0#32, 0#32⟩ := by decide

theorem test_mix1 :
    accOf (exec .mix1 (atOp .mix1 [] ⟨0x00000001#32, 0x00000002#32, 0x00000003#32⟩)) =
    some ⟨0xFFFFFFCE#32, 0x00000002#32, 0x00000005#32⟩ := by decide

theorem test_mix1_order :
    accOf (exec .mix1 (atOp .mix1 [] ⟨0x00000000#32, 0x00000001#32, 0x00000000#32⟩)) =
    some ⟨0x00000000#32, 0x00000001#32, 0x00000001#32⟩ := by decide

theorem test_mix2 :
    accOf (exec .mix2 (atOp .mix2 [] ⟨0xFFFFFFCE#32, 0x00000002#32, 0x00000005#32⟩)) =
    some ⟨0xFFFFFFD3#32, 0xFFFFF38B#32, 0x00000005#32⟩ := by decide

theorem test_mix2_order :
    accOf (exec .mix2 (atOp .mix2 [] ⟨0x00000000#32, 0x00000001#32, 0x00000001#32⟩)) =
    some ⟨0x00000001#32, 0x00000001#32, 0x00000001#32⟩ := by decide

theorem test_mix3 :
    accOf (exec .mix3 (atOp .mix3 [] ⟨0xFFFFFFD3#32, 0xFFFFF38B#32, 0x00000005#32⟩)) =
    some ⟨0xFFFFFFD3#32, 0xFFFFF35E#32, 0xFFF38785#32⟩ := by decide

theorem test_mix3_order :
    accOf (exec .mix3 (atOp .mix3 [] ⟨0x00000001#32, 0x00000001#32, 0x00000001#32⟩)) =
    some ⟨0x00000001#32, 0x00000002#32, 0x00000100#32⟩ := by decide

theorem test_mix4 :
    accOf (exec .mix4 (atOp .mix4 [] ⟨0xFFFFFFD3#32, 0xFFFFF35E#32, 0xFFF38785#32⟩)) =
    some ⟨0x878987BD#32, 0xFFFFF35E#32, 0xFFF37AE3#32⟩ := by decide

theorem test_mix4_order :
    accOf (exec .mix4 (atOp .mix4 [] ⟨0x00000001#32, 0x00000002#32, 0x00000100#32⟩)) =
    some ⟨0xFEFFFF01#32, 0x00000002#32, 0x00000102#32⟩ := by decide

theorem test_mix5 :
    accOf (exec .mix5 (atOp .mix5 [] ⟨0x878987BD#32, 0xFFFFF35E#32, 0xFFF37AE3#32⟩)) =
    some ⟨0x877D02A0#32, 0x459A57ED#32, 0xFFF37AE3#32⟩ := by decide

theorem test_mix5_order :
    accOf (exec .mix5 (atOp .mix5 [] ⟨0xFEFFFF01#32, 0x00000002#32, 0x00000102#32⟩)) =
    some ⟨0xFF000003#32, 0xF90FF6FE#32, 0x00000102#32⟩ := by decide

theorem test_mix6 :
    accOf (exec .mix6 (atOp .mix6 [] ⟨0x877D02A0#32, 0x459A57ED#32, 0xFFF37AE3#32⟩)) =
    some ⟨0x877D02A0#32, 0xCD175A8D#32, 0xE3FC5C22#32⟩ := by decide

theorem test_mix6_order :
    accOf (exec .mix6 (atOp .mix6 [] ⟨0xFF000003#32, 0xF90FF6FE#32, 0x00000102#32⟩)) =
    some ⟨0xFF000003#32, 0xF80FF701#32, 0x960F65EB#32⟩ := by decide

theorem test_advance : cursorOf (exec .advance (atOp .advance (countUp 13) ⟨0#32, 0#32, 0#32⟩)) = some (12, 1) := by decide

theorem test_advance_long :
    cursorOf (exec .advance { atOp .advance [] ⟨0#32, 0#32, 0#32⟩ with rem := 0xFFFFFFFF#32 }) =
    some (12, 0xFFFFFFF3) := by decide

theorem test_tail11 :
    accOf (exec .tail11 (atOp .tail11 (countUp 11) ⟨0x00000000#32, 0x00000000#32, 0x9E73565B#32⟩)) =
    some ⟨0x00000000#32, 0x00000000#32, 0xA973565B#32⟩ := by decide

theorem test_tail10 :
    accOf (exec .tail10 (atOp .tail10 (countUp 11) ⟨0x00000000#32, 0x00000000#32, 0xA973565B#32⟩)) =
    some ⟨0x00000000#32, 0x00000000#32, 0xA97D565B#32⟩ := by decide

theorem test_tail9 :
    accOf (exec .tail9 (atOp .tail9 (countUp 11) ⟨0x00000000#32, 0x00000000#32, 0xA97D565B#32⟩)) =
    some ⟨0x00000000#32, 0x00000000#32, 0xA97D5F5B#32⟩ := by decide

theorem test_tail8 :
    accOf (exec .tail8 (atOp .tail8 (countUp 11) ⟨0x00000000#32, 0x9E73565B#32, 0x00000000#32⟩)) =
    some ⟨0x00000000#32, 0xA673565B#32, 0x00000000#32⟩ := by decide

theorem test_tail7 :
    accOf (exec .tail7 (atOp .tail7 (countUp 11) ⟨0x00000000#32, 0xA673565B#32, 0x00000000#32⟩)) =
    some ⟨0x00000000#32, 0xA67A565B#32, 0x00000000#32⟩ := by decide

theorem test_tail6 :
    accOf (exec .tail6 (atOp .tail6 (countUp 11) ⟨0x00000000#32, 0xA67A565B#32, 0x00000000#32⟩)) =
    some ⟨0x00000000#32, 0xA67A5C5B#32, 0x00000000#32⟩ := by decide

theorem test_tail5 :
    accOf (exec .tail5 (atOp .tail5 (countUp 11) ⟨0x00000000#32, 0xA67A5C5B#32, 0x00000000#32⟩)) =
    some ⟨0x00000000#32, 0xA67A5C60#32, 0x00000000#32⟩ := by decide

theorem test_tail4 :
    accOf (exec .tail4 (atOp .tail4 (countUp 11) ⟨0x9E73565B#32, 0x00000000#32, 0x00000000#32⟩)) =
    some ⟨0xA273565B#32, 0x00000000#32, 0x00000000#32⟩ := by decide

theorem test_tail3 :
    accOf (exec .tail3 (atOp .tail3 (countUp 11) ⟨0xA273565B#32, 0x00000000#32, 0x00000000#32⟩)) =
    some ⟨0xA276565B#32, 0x00000000#32, 0x00000000#32⟩ := by decide

theorem test_tail2 :
    accOf (exec .tail2 (atOp .tail2 (countUp 11) ⟨0xA276565B#32, 0x00000000#32, 0x00000000#32⟩)) =
    some ⟨0xA276585B#32, 0x00000000#32, 0x00000000#32⟩ := by decide

theorem test_tail1 :
    accOf (exec .tail1 (atOp .tail1 (countUp 11) ⟨0xA276585B#32, 0x00000000#32, 0x00000000#32⟩)) =
    some ⟨0xA276585C#32, 0x00000000#32, 0x00000000#32⟩ := by decide

theorem test_tail11_carry_lost :
    accOf (exec .tail11 (atOp .tail11 (List.replicate 10 0#8 ++ [0x01#8]) ⟨0x00000000#32, 0x00000000#32, 0xFF000000#32⟩)) =
    some ⟨0x00000000#32, 0x00000000#32, 0x00000000#32⟩ := by decide

theorem test_tail10_carry_into_byte3 :
    accOf (exec .tail10 (atOp .tail10 (List.replicate 9 0#8 ++ [0x01#8]) ⟨0x00000000#32, 0x00000000#32, 0x00FF0000#32⟩)) =
    some ⟨0x00000000#32, 0x00000000#32, 0x01000000#32⟩ := by decide

theorem test_tail9_low_byte_kept :
    accOf (exec .tail9 (atOp .tail9 (List.replicate 8 0#8 ++ [0xFF#8]) ⟨0x00000000#32, 0x00000000#32, 0x000000AA#32⟩)) =
    some ⟨0x00000000#32, 0x00000000#32, 0x0000FFAA#32⟩ := by decide

theorem test_tail5_unsigned :
    accOf (exec .tail5 (atOp .tail5 (List.replicate 4 0#8 ++ [0xFF#8]) ⟨0x00000000#32, 0x00000001#32, 0x00000000#32⟩)) =
    some ⟨0x00000000#32, 0x00000100#32, 0x00000000#32⟩ := by decide

theorem test_tail4_wraps :
    accOf (exec .tail4 (atOp .tail4 (List.replicate 3 0#8 ++ [0x80#8]) ⟨0x80000000#32, 0x00000000#32, 0x00000000#32⟩)) =
    some ⟨0x00000000#32, 0x00000000#32, 0x00000000#32⟩ := by decide

theorem test_tail1_zero :
    accOf (exec .tail1 (atOp .tail1 (List.replicate 0 0#8 ++ [0x00#8]) ⟨0x12345678#32, 0x00000000#32, 0x00000000#32⟩)) =
    some ⟨0x12345678#32, 0x00000000#32, 0x00000000#32⟩ := by decide

theorem test_tailwb :
    accOf (exec .tailwb (atOp .tailwb (countUp 8) ⟨0x00000000#32, 0x9E73565B#32, 0x00000000#32⟩)) =
    some ⟨0x00000000#32, 0xA67A5C60#32, 0x00000000#32⟩ := by decide

theorem test_tailwa :
    accOf (exec .tailwa (atOp .tailwa (countUp 4) ⟨0x9E73565B#32, 0x00000000#32, 0x00000000#32⟩)) =
    some ⟨0xA276585C#32, 0x00000000#32, 0x00000000#32⟩ := by decide

theorem test_fin1 :
    accOf (exec .fin1 (atOp .fin1 [] ⟨0x9E735650#32, 0x9E735650#32, 0x9E735650#32⟩)) =
    some ⟨0x9E735650#32, 0x9E735650#32, 0x2A6BD864#32⟩ := by decide

theorem test_fin1_small :
    accOf (exec .fin1 (atOp .fin1 [] ⟨0x00000001#32, 0x00000002#32, 0x00000003#32⟩)) =
    some ⟨0x00000001#32, 0x00000002#32, 0xFFFF8001#32⟩ := by decide

theorem test_fin2 :
    accOf (exec .fin2 (atOp .fin2 [] ⟨0x9E735650#32, 0x9E735650#32, 0x2A6BD864#32⟩)) =
    some ⟨0x55556CE1#32, 0x9E735650#32, 0x2A6BD864#32⟩ := by decide

theorem test_fin2_small :
    accOf (exec .fin2 (atOp .fin2 [] ⟨0x00000001#32, 0x00000002#32, 0xFFFF8001#32⟩)) =
    some ⟨0x03FF7001#32, 0x00000002#32, 0xFFFF8001#32⟩ := by decide

theorem test_fin3 :
    accOf (exec .fin3 (atOp .fin3 [] ⟨0x55556CE1#32, 0x9E735650#32, 0x2A6BD864#32⟩)) =
    some ⟨0x55556CE1#32, 0x087B8FD8#32, 0x2A6BD864#32⟩ := by decide

theorem test_fin3_small :
    accOf (exec .fin3 (atOp .fin3 [] ⟨0x03FF7001#32, 0x00000002#32, 0xFFFF8001#32⟩)) =
    some ⟨0x03FF7001#32, 0x01F77123#32, 0xFFFF8001#32⟩ := by decide

theorem test_fin4 :
    accOf (exec .fin4 (atOp .fin4 [] ⟨0x55556CE1#32, 0x087B8FD8#32, 0x2A6BD864#32⟩)) =
    some ⟨0x55556CE1#32, 0x087B8FD8#32, 0x92384F41#32⟩ := by decide

theorem test_fin4_small :
    accOf (exec .fin4 (atOp .fin4 [] ⟨0x03FF7001#32, 0x01F77123#32, 0xFFFF8001#32⟩)) =
    some ⟨0x03FF7001#32, 0x01F77123#32, 0x8CE5EF2B#32⟩ := by decide

theorem test_fin5 :
    accOf (exec .fin5 (atOp .fin5 [] ⟨0x55556CE1#32, 0x087B8FD8#32, 0x92384F41#32⟩)) =
    some ⟨0xA3E82F87#32, 0x087B8FD8#32, 0x92384F41#32⟩ := by decide

theorem test_fin5_small :
    accOf (exec .fin5 (atOp .fin5 [] ⟨0x03FF7001#32, 0x01F77123#32, 0x8CE5EF2B#32⟩)) =
    some ⟨0xC0BBAC72#32, 0x01F77123#32, 0x8CE5EF2B#32⟩ := by decide

theorem test_fin6 :
    accOf (exec .fin6 (atOp .fin6 [] ⟨0xA3E82F87#32, 0x087B8FD8#32, 0x92384F41#32⟩)) =
    some ⟨0xA3E82F87#32, 0x9FB1B765#32, 0x92384F41#32⟩ := by decide

theorem test_fin6_small :
    accOf (exec .fin6 (atOp .fin6 [] ⟨0xC0BBAC72#32, 0x01F77123#32, 0x8CE5EF2B#32⟩)) =
    some ⟨0xC0BBAC72#32, 0xD6302D23#32, 0x8CE5EF2B#32⟩ := by decide

theorem test_result :
    digestOf (exec .result (atOp .result [] ⟨0#32, 0#32, 0x50E3F6B7#32⟩)) = some 0x50E3F6B7#32 ∧
    upcOf (exec .result (atOp .result [] ⟨0#32, 0#32, 0x50E3F6B7#32⟩)) = some .done := by decide

/-! The sequencer (spec/95_test_vectors.md section 3.9): INIT's dispatch, and the rows that name the path. -/

theorem test_dispatch_portable :
    ∀ row ∈
      [ (0, Instr.fin1), (1, .tail1), (2, .tail2), (3, .tail3), (4, .tail4), (5, .tail5), (6, .tail6), (7, .tail7), (8, .tail8),
        (9, .tail9), (10, .tail10), (11, .tail11), (12, .absorb), (0xFFFFFFFF, .absorb) ],
      upcOf (exec .init { atInit [] with len := BitVec.ofNat 32 row.1 }) = some (.op row.2) := by decide

theorem fast_of_aligned (h : Config.fastpath = true) {s : State} (hb : s.base % 4 = 0) : s.fast = true := by
  simp [State.fast, h, hb]

theorem fastPath_of_aligned (h : Config.fastpath = true) {s : State} (hh : s.baseHeld = true) (hb : s.base % 4 = 0) :
    fastPath s = some true := by simp [fastPath, h, hh, hb]

theorem portable_of_unaligned {s : State} (hb : s.base % 4 = 1) : s.fast = false := by simp [State.fast, hb]

/-- INIT with 8 or 4 bytes on the fast path. On an aligned `BASE` the path is what `FASTPATH` says (R58). -/
theorem test_init_fast (h : Config.fastpath = true) {s : State} (hl : s.lenHeld = true) (hh : s.baseHeld = true)
    (hb : s.base % 4 = 0) :
    (s.len.toNat = 8 → upcOf (exec .init s) = some (.op .tailwb)) ∧
    (s.len.toNat = 4 → upcOf (exec .init s) = some (.op .tailwa)) := by
  have hx : exec .init s = retire .init (s.seed ⟨seedK + s.len, seedK + s.len, seedK + s.len⟩ 0#32 s.len) := if_pos hl
  have hp : ∀ x y : Instr, byPath (s.seed ⟨seedK + s.len, seedK + s.len, seedK + s.len⟩ 0#32 s.len) x y = some (.op x) :=
    fun x y => byPath_of_fastPath (fastPath_of_aligned h hh hb) x y
  refine ⟨fun hn => ?_, fun hn => ?_⟩ <;> rw [hx, retire, successor, loopTarget] <;> simp only [State.seed_rem, hn, hp] <;>
    rfl

/-- Each code of the table, put where the step finds it, runs as the first operation after reset. -/
theorem test_fetch_word :
    Instr.all.all (fun i => (upcOf (step (State.reset.withFetchWord 8 (encodeCode i).toNat))).isSome) = true ∧
    stopOf (step (State.reset.withFetchWord 8 0x20)) = some (.inr .reservedOpcode) := by decide

/-- A word of 16 bits is no code (R81), also where its low byte is the code of the operation the sequencer is at. -/
theorem test_fetch_long_word : decodeTableWord 16 0x2B = none ∧
    stopOf (step (({ State.reset with upc := .op .tail11 } : State).withFetchWord 16 0x2B)) =
      some (.inr .reservedOpcode) := by decide

/-! Memory (spec/95_test_vectors.md section 3.10). -/

theorem test_read_word : readWord (atOp .absorb (countUp 4) ⟨0#32, 0#32, 0#32⟩) 0 = some 0x04030201#32 := by decide

/-- `LEN = 5`, `EXTENT = 4`: INIT steps, TAIL5 needs offset 4 and has no step. -/
theorem test_short_buffer :
    upcOf (exec .init { atInit (countUp 4) with len := 5#32 }) = some (.op .tail5) ∧
    stopOf (exec .tail5 { atOp .tail5 (countUp 4) ⟨0#32, 0#32, 0#32⟩ with len := 5#32, rem := 5#32 }) =
      some (.inl .unreadableInput) := by decide

/-- `LEN = 12`, `EXTENT = 11`: ABSORB needs offsets 0 to 11. -/
theorem test_short_block :
    stopOf (exec .absorb { atOp .absorb (countUp 11) ⟨0#32, 0#32, 0#32⟩ with len := 12#32, rem := 12#32 }) =
      some (.inl .unreadableInput) := by decide

/-! The host's requests and the refusals (spec/95_test_vectors.md section 3.11). -/

theorem test_reset_status : replyOf (step (asked (.read .status) State.reset)) = some 0 ∧
    replyOf (step (asked (.read .ctrl) State.reset)) = some 0 := by decide

theorem test_refuse_reserved_code :
    stopOf (step (asked (.issue 0x20#8) State.reset)) = some (.inr .reservedOpcode) ∧
    stopOf (step (asked (.issue 0x17#8) (atOp .mix6 [] ⟨0#32, 0#32, 0#32⟩))) = some (.inr .reservedOpcode) := by decide

theorem test_refuse_ctrl_bits :
    stopOf (step (asked (.write .ctrl 3) State.reset)) = some (.inr .reservedCtrlBits) ∧
    upcOf (step (asked (.write .ctrl 1) State.reset)) = some (.op .init) := by decide

theorem test_refuse_busy :
    stopOf (step (asked (.write .ctrl 1) (atOp .mix3 [] ⟨0#32, 0#32, 0#32⟩))) = some (.inr .writeWhileBusy) ∧
    stopOf (step (asked (.write .len 4) (atOp .fin1 [] ⟨0#32, 0#32, 0#32⟩))) = some (.inr .writeWhileBusy) := by decide

theorem test_refuse_digest :
    stopOf (step (asked (.read .digest) State.reset)) = some (.inr .digestNotReady) ∧
    stopOf (step (asked (.read .digest) (atOp .fin1 [] ⟨0#32, 0#32, 0#32⟩))) = some (.inr .digestNotReady) := by decide

theorem test_refuse_unwritten_len :
    stopOf (step { State.reset with upc := .op .init }) = some (.inr .readOfUnwrittenState) ∧
    stopOf (step (asked (.read .len) State.reset)) = some (.inr .readOfUnwrittenState) := by decide

theorem test_refuse_out_of_place :
    stopOf (step (asked (.issue 0x21#8) (atOp .tail2 (countUp 2) ⟨0#32, 0#32, 0#32⟩))) = some (.inr .notARun) := by decide

/-- Reserved bits of CTRL while busy: the name of the refusal is the model's choice (notes/assumptions/7.md). -/
theorem test_refuse_busy_reserved :
    stopOf (step (asked (.write .ctrl 3) (atOp .mix3 [] ⟨0#32, 0#32, 0#32⟩))) = some (.inr .writeWhileBusy) := by decide

theorem test_refuse_read_only : stopOf (step (asked (.write .status 0) State.reset)) = some (.inr .writeToReadOnly) := by decide

theorem test_host_register_map : [HostReg.len, .base, .ctrl, .status, .digest].map hostRegOffset =
    [0x00, 0x04, 0x08, 0x0C, 0x10] ∧ hostRegOfOffset 0x0C = some .status ∧ hostRegOfOffset 0x14 = none := by decide

/-! Digests (spec/95_test_vectors.md section 5). -/

theorem test_digest_empty : hashBytes (bytesAt []) 0#32 = 0x92384F41#32 := by decide
theorem test_digest_abc : hashBytes (bytesAt [0x61#8, 0x62#8, 0x63#8]) 3#32 = 0xAC896183#32 := by decide
theorem test_digest_11 : hashBytes (bytesAt (countUp 11)) 11#32 = 0x50E3F6B7#32 := by decide
/-- A seventh row given to FINAL_TABLE (D25), against section 6 there, which is informative only. -/
def sevenRows : RoundTables := { roundTables with final := defaultFinalTable ++ [⟨.c, .b, .b, 24⟩] }

theorem test_digest_seven_rows : hashBytesWith sevenRows (bytesAt []) 0#32 = 0xA7EA466D#32 ∧
    hashBytesWith sevenRows (bytesAt [0x61#8, 0x62#8, 0x63#8]) 3#32 = 0xD12FEB97#32 := by decide

/-- FIN6 of such a block: after its own row, on P1's accumulators after FIN5, `c` is the seven-row digest of that section. -/
theorem test_fin6_seven_rows :
    (accOf (finalOp sevenRows .fin6 5 (atOp .fin6 [] ⟨0xA3E82F87#32, 0x087B8FD8#32, 0x92384F41#32⟩))).map (fun x => x.c) =
    some 0xA7EA466D#32 := by decide

theorem test_digest_13 : hashBytes (bytesAt (countUp 13)) 13#32 = 0x78A64F42#32 := by decide

/-! WITNESSES. For each statement of Sys2Proof/Certificates/Slice0/Obligations.lean with hypotheses, states and operands that
meet them, clause by clause. A clause about the fast read path can be met only where `FASTPATH` is true, which the spec leaves
open (R9), so its witness has that as its one premise. -/

/-- Inside a run, at operation `i`, with an input of zeros and `BASE` 0. -/
def inRun (i : Instr) (pos rem : Nat) : State :=
  { atOp i (List.replicate (pos + rem) 0#8) ⟨1#32, 2#32, 3#32⟩ with
    pos := BitVec.ofNat 32 pos, rem := BitVec.ofNat 32 rem, base := 0 }

/-- At DONE with a digest. -/
def atDone : State := { State.reset with upc := .done, digest := some 7#32, lenHeld := true, base := 0, baseHeld := true }

theorem inRun_inv {i : Instr} {pos rem : Nat} (hl : pos + rem < 2 ^ 32) (hp : pos % 12 = 0)
    (h : phase i (inRun i pos rem)) : (inRun i pos rem).Inv where
  input := Memory.ofBytes_wf _
  baseFits := Nat.two_pow_pos _
  digest := by simp [inRun, atOp, State.reset]
  running j hj _ := by
    cases hj
    have h₁ : (inRun i pos rem).pos.toNat = pos := by simp only [inRun, BitVec.toNat_ofNat]; omega
    have h₂ : (inRun i pos rem).rem.toNat = rem := by simp only [inRun, BitVec.toNat_ofNat]; omega
    have h₃ : (inRun i pos rem).len.toNat = pos + rem := by
      simp only [inRun, atOp, List.length_replicate, BitVec.toNat_ofNat]; omega
    exact ⟨rfl, rfl, by rw [h₁, h₂, h₃], by rw [h₁, hp], h⟩

theorem atDone_inv : atDone.Inv where
  input := rfl
  baseFits := Nat.two_pow_pos _
  digest := by simp [atDone]
  running i hi _ := by cases hi

theorem reset_inv : State.reset.Inv where
  input := rfl
  baseFits := Nat.two_pow_pos _
  digest := by simp [State.reset]
  running i hi _ := by cases hi

/-- Every operation answers a next state somewhere, whatever `FASTPATH` is: for SuccessorTable, OperationFrame,
InputIsNeverWritten, ResultHandsOutTheDigest and the clauses of others that begin with such an answer. -/
theorem witness_every_operation_completes : ∀ i : Instr, ∃ s t, s.seeded = true ∧ s.lenHeld = true ∧ exec i s = .next t := by
  intro i
  cases i <;> exact ⟨atOp .init (countUp 24) ⟨1#32, 2#32, 3#32⟩, _, rfl, rfl, rfl⟩

/-- The dispatch sees each remaining length, on the portable path: for SuccessorTable and for every issuedFirstWhen. -/
theorem witness_dispatch : ∀ n, n < 14 → ∃ s t, exec .init s = .next t ∧ t.rem.toNat = n ∧ t.fast = false := by
  intro n hn
  interval_cases n
  · exact ⟨atInit (countUp 0), _, rfl, rfl, portable_of_unaligned rfl⟩
  · exact ⟨atInit (countUp 1), _, rfl, rfl, portable_of_unaligned rfl⟩
  · exact ⟨atInit (countUp 2), _, rfl, rfl, portable_of_unaligned rfl⟩
  · exact ⟨atInit (countUp 3), _, rfl, rfl, portable_of_unaligned rfl⟩
  · exact ⟨atInit (countUp 4), _, rfl, rfl, portable_of_unaligned rfl⟩
  · exact ⟨atInit (countUp 5), _, rfl, rfl, portable_of_unaligned rfl⟩
  · exact ⟨atInit (countUp 6), _, rfl, rfl, portable_of_unaligned rfl⟩
  · exact ⟨atInit (countUp 7), _, rfl, rfl, portable_of_unaligned rfl⟩
  · exact ⟨atInit (countUp 8), _, rfl, rfl, portable_of_unaligned rfl⟩
  · exact ⟨atInit (countUp 9), _, rfl, rfl, portable_of_unaligned rfl⟩
  · exact ⟨atInit (countUp 10), _, rfl, rfl, portable_of_unaligned rfl⟩
  · exact ⟨atInit (countUp 11), _, rfl, rfl, portable_of_unaligned rfl⟩
  · exact ⟨atInit (countUp 12), _, rfl, rfl, portable_of_unaligned rfl⟩
  · exact ⟨atInit (countUp 13), _, rfl, rfl, portable_of_unaligned rfl⟩

/-- The two rows of the dispatch on the fast path, and the two of TAIL9 and TAIL5: for SuccessorTable,
TailWordsGoIntoBAndA and every issuedOnlyOn of the fast path. -/
theorem witness_dispatch_fast (h : Config.fastpath = true) :
    (∃ s t, exec .init s = .next t ∧ t.rem.toNat = 8 ∧ t.fast = true ∧ t.upc = .op .tailwb) ∧
    (∃ s t, exec .init s = .next t ∧ t.rem.toNat = 4 ∧ t.fast = true ∧ t.upc = .op .tailwa) ∧
    (∃ s t, exec .tail9 s = .next t ∧ t.fast = true ∧ t.upc = .op .tailwb) ∧
    (∃ s t, exec .tail5 s = .next t ∧ t.fast = true ∧ t.upc = .op .tailwa) := by
  have hp : ∀ m : State, m.baseHeld = true → m.base % 4 = 0 → ∀ x y : Instr, byPath m x y = some (.op x) :=
    fun m hh hb x y => byPath_of_fastPath (fastPath_of_aligned h hh hb) x y
  have hi : ∀ n, ∃ m, m.baseHeld = true ∧ m.base % 4 = 0 ∧ m.rem = BitVec.ofNat 32 n ∧
      exec .init { atInit [] with base := 0, len := BitVec.ofNat 32 n } = retire .init m :=
    fun n => ⟨_, rfl, rfl, rfl, rfl⟩
  refine ⟨?_, ?_, ?_, ?_⟩
  · obtain ⟨m, hh, hb, hr, he⟩ := hi 8
    refine ⟨_, _, he.trans (retire_of_successor (u := .op .tailwb) ?_), by simp [hr], fast_of_aligned h hb, rfl⟩
    rw [successor, loopTarget, hr]; exact hp m hh hb _ _
  · obtain ⟨m, hh, hb, hr, he⟩ := hi 4
    refine ⟨_, _, he.trans (retire_of_successor (u := .op .tailwa) ?_), by simp [hr], fast_of_aligned h hb, rfl⟩
    rw [successor, loopTarget, hr]; exact hp m hh hb _ _
  · have he : exec .tail9 (alignedAt .tail9 (List.replicate 9 0#8) ⟨0#32, 0#32, 0#32⟩) = retire .tail9
        (alignedAt .tail9 (List.replicate 9 0#8) ⟨0#32, 0#32, 0#32 + placeByte 0#8 8⟩) := rfl
    exact ⟨_, _, he.trans (retire_of_successor (hp _ rfl rfl _ _)), fast_of_aligned h rfl, rfl⟩
  · have he : exec .tail5 (alignedAt .tail5 (List.replicate 5 0#8) ⟨0#32, 0#32, 0#32⟩) = retire .tail5
        (alignedAt .tail5 (List.replicate 5 0#8) ⟨0#32, 0#32 + placeByte 0#8 0, 0#32⟩) := rfl
    exact ⟨_, _, he.trans (retire_of_successor (hp _ rfl rfl _ _)), fast_of_aligned h rfl, rfl⟩

/-- Every operation but INIT and TAILWB is issued after some operation, whatever `FASTPATH` is: for every issuedOnlyAfter and
for issuedOnlyOn of TAIL8 and TAIL4. TAILWB is in `witness_dispatch_fast`. -/
theorem witness_issued : ∀ i : Instr, i ≠ .init → i ≠ .tailwb → ∃ j s t, exec j s = .next t ∧ t.upc = .op i := by
  intro i h₁ h₂
  cases i
  case init => exact absurd rfl h₁
  case tailwb => exact absurd rfl h₂
  case absorb => exact ⟨.init, atInit (countUp 12), _, rfl, rfl⟩
  case mix1 => exact ⟨.absorb, atOp .init (countUp 12) ⟨0#32, 0#32, 0#32⟩, _, rfl, rfl⟩
  case mix2 => exact ⟨.mix1, atOp .init [] ⟨0#32, 0#32, 0#32⟩, _, rfl, rfl⟩
  case mix3 => exact ⟨.mix2, atOp .init [] ⟨0#32, 0#32, 0#32⟩, _, rfl, rfl⟩
  case mix4 => exact ⟨.mix3, atOp .init [] ⟨0#32, 0#32, 0#32⟩, _, rfl, rfl⟩
  case mix5 => exact ⟨.mix4, atOp .init [] ⟨0#32, 0#32, 0#32⟩, _, rfl, rfl⟩
  case mix6 => exact ⟨.mix5, atOp .init [] ⟨0#32, 0#32, 0#32⟩, _, rfl, rfl⟩
  case advance => exact ⟨.mix6, atOp .init [] ⟨0#32, 0#32, 0#32⟩, _, rfl, rfl⟩
  case tail11 => exact ⟨.init, atInit (countUp 11), _, rfl, rfl⟩
  case tail10 => exact ⟨.tail11, atOp .init (countUp 11) ⟨0#32, 0#32, 0#32⟩, _, rfl, rfl⟩
  case tail9 => exact ⟨.tail10, atOp .init (countUp 11) ⟨0#32, 0#32, 0#32⟩, _, rfl, rfl⟩
  case tail8 => exact ⟨.tail9, atOp .init (countUp 11) ⟨0#32, 0#32, 0#32⟩, _, rfl, rfl⟩
  case tail7 => exact ⟨.tail8, atOp .init (countUp 11) ⟨0#32, 0#32, 0#32⟩, _, rfl, rfl⟩
  case tail6 => exact ⟨.tail7, atOp .init (countUp 11) ⟨0#32, 0#32, 0#32⟩, _, rfl, rfl⟩
  case tail5 => exact ⟨.tail6, atOp .init (countUp 11) ⟨0#32, 0#32, 0#32⟩, _, rfl, rfl⟩
  case tail4 => exact ⟨.tail5, atOp .init (countUp 11) ⟨0#32, 0#32, 0#32⟩, _, rfl, rfl⟩
  case tail3 => exact ⟨.tail4, atOp .init (countUp 11) ⟨0#32, 0#32, 0#32⟩, _, rfl, rfl⟩
  case tail2 => exact ⟨.tail3, atOp .init (countUp 11) ⟨0#32, 0#32, 0#32⟩, _, rfl, rfl⟩
  case tail1 => exact ⟨.tail2, atOp .init (countUp 11) ⟨0#32, 0#32, 0#32⟩, _, rfl, rfl⟩
  case tailwa => exact ⟨.tailwb, atOp .init (countUp 11) ⟨0#32, 0#32, 0#32⟩, _, rfl, rfl⟩
  case fin1 => exact ⟨.tail1, atOp .init (countUp 11) ⟨0#32, 0#32, 0#32⟩, _, rfl, rfl⟩
  case fin2 => exact ⟨.fin1, atOp .init [] ⟨0#32, 0#32, 0#32⟩, _, rfl, rfl⟩
  case fin3 => exact ⟨.fin2, atOp .init [] ⟨0#32, 0#32, 0#32⟩, _, rfl, rfl⟩
  case fin4 => exact ⟨.fin3, atOp .init [] ⟨0#32, 0#32, 0#32⟩, _, rfl, rfl⟩
  case fin5 => exact ⟨.fin4, atOp .init [] ⟨0#32, 0#32, 0#32⟩, _, rfl, rfl⟩
  case fin6 => exact ⟨.fin5, atOp .init [] ⟨0#32, 0#32, 0#32⟩, _, rfl, rfl⟩
  case result => exact ⟨.fin6, atOp .init [] ⟨0#32, 0#32, 0#32⟩, _, rfl, rfl⟩

/-- For every number of bytes an operation reads, a state in which they are readable and not one more is: for
TailBytesGoIntoC, TailBytesGoIntoB, TailBytesGoIntoA, TailWordsGoIntoBAndA and WordTailEqualsByteTail. -/
theorem witness_readable : ∀ n, n < 13 → ∃ s : State, s.seeded = true ∧ s.baseReady ∧ s.canRead n ∧
    s.mem.extent = s.pos.toNat + n ∧ s.len.toNat = s.pos.toNat + n := by
  intro n hn
  refine ⟨atOp .tail1 (countUp n) ⟨1#32, 2#32, 3#32⟩, rfl, fun _ => rfl, ?_⟩
  interval_cases n <;> exact ⟨⟨by decide, by decide⟩, by decide, by decide⟩

theorem witness_CodesOfTheTableDecode :
    ∃ row ∈ [(0x00#8, Instr.init), (0x3F#8, .result)], decode (row.1 :: [0x20#8]) = .ok (row.2, [0x20#8]) :=
  ⟨(0x3F#8, .result), by decide, rfl⟩

theorem witness_DecodeAndEncodeAgree : Instr.result.wf = true ∧ decode [0x00#8, 0x20#8] = .ok (.init, [0x20#8]) :=
  ⟨rfl, rfl⟩

theorem witness_ReservedCodesAreRefused :
    (∀ i, encodeCode i ≠ 0x20#8) ∧ (∀ i, encodeCode i ≠ 0xFF#8) ∧ (∀ i, encodeCode i ≠ 0x01#8) ∧
    (asked (.issue 0x20#8) State.reset).requests = .issue 0x20#8 :: [] ∧ (inRun .tail1 0 1).upc = .op .tail1 :=
  ⟨by intro i; cases i <;> decide, by intro i; cases i <;> decide, by intro i; cases i <;> decide, rfl, rfl⟩

theorem witness_StreamWellFormedness :
    (∃ ops : List Instr, streamWf ops = true ∧ ∃ len fast, len < 2 ^ 32 ∧ ops = hashStream len fast) ∧
    (∀ len fast, len < 2 ^ 32 → ([] : List Instr) ≠ hashStream len fast) ∧
    (∃ t, runStream (encodeAll (hashStream 3 false)) (atInit (countUp 3)) = .next t) :=
  ⟨⟨hashStream 13 true, by decide, 13, true, by decide, rfl⟩, fun _ _ _ h => by simp [hashStream] at h, _, rfl⟩

theorem witness_StepRunsTheSelectedOperation :
    ((inRun .mix1 0 12).requests = [] ∧ (inRun .mix1 0 12).upc = .op .mix1) ∧ decodeTableWord 8 0x11 = some .mix1 ∧
    (decodeTableWord 8 0x20 = none ∧ decodeTableWord 16 0x11 = none) ∧
    ((asked (.issue 0x11#8) (inRun .mix1 0 12)).requests = .issue 0x11#8 :: [] ∧ decode [0x11#8] = .ok (.mix1, []) ∧
      (asked (.issue 0x11#8) (inRun .mix1 0 12)).upc = .op .mix1) := ⟨⟨rfl, rfl⟩, rfl, ⟨rfl, rfl⟩, rfl, rfl, rfl⟩

theorem witness_RestingBlockHasNoStep :
    (State.reset.requests = [] ∧ State.reset.upc = .idle) ∧ (atDone.requests = [] ∧ atDone.upc = .done) :=
  ⟨⟨rfl, rfl⟩, rfl, rfl⟩

theorem witness_InitSeedsAccumulators :
    ((atInit []).lenHeld = true ∧ (atInit []).baseReady) ∧ State.reset.lenHeld = false ∧
    (∃ t, step (asked (.write .ctrl 1) State.reset) = .next t ∧ t.upc = .op .init) ∧
    (∃ t, step (asked (.read .status) (atInit [])) = .next t ∧ t.upc = .op .init) :=
  ⟨⟨rfl, fun _ => rfl⟩, rfl, ⟨_, rfl, rfl⟩, _, rfl, rfl⟩

theorem witness_AbsorbAddsThreeWords :
    (∃ s : State, s.seeded = true ∧ s.baseReady ∧ s.canRead 12) ∧
    (∃ s : State, s.seeded = true ∧ s.mem.extent + 1 = s.pos.toNat + 12) ∧
    (∃ s t, exec .init s = .next t ∧ t.upc = .op .absorb ∧ t.rem.toNat = 12) :=
  ⟨⟨atOp .absorb (countUp 12) ⟨1#32, 2#32, 3#32⟩, rfl, fun _ => rfl, by decide, by decide⟩,
   ⟨atOp .absorb (countUp 11) ⟨1#32, 2#32, 3#32⟩, rfl, by decide⟩, atInit (countUp 12), _, rfl, rfl, rfl⟩

/-- For Mix1Result to Mix6Result, Fin1Result to Fin6Result, ResultHandsOutTheDigest and DigestIsFixedAfterFin4; where each
operation is issued, see `witness_issued`. -/
theorem witness_seeded : (inRun .mix1 0 12).seeded = true ∧ (inRun .fin1 0 0).seeded = true := ⟨rfl, rfl⟩

theorem witness_AdvanceMovesPastTheBlock :
    (∀ n ∈ [24, 23, 13, 12], ∃ s : State, s.seeded = true ∧ s.baseReady ∧ (s.rem - 12#32).toNat + 12 = n) ∧
    ((inRun .advance 12 12).Inv ∧ (inRun .advance 12 12).upc = .op .advance) := by
  refine ⟨fun n hn => ?_, inRun_inv (by decide) (by decide) (show 12 ≤ _ by decide), rfl⟩
  simp only [List.mem_cons, List.not_mem_nil, or_false] at hn
  rcases hn with rfl | rfl | rfl | rfl
  · exact ⟨inRun .advance 0 24, rfl, fun _ => rfl, by decide⟩
  · exact ⟨inRun .advance 0 23, rfl, fun _ => rfl, by decide⟩
  · exact ⟨inRun .advance 0 13, rfl, fun _ => rfl, by decide⟩
  · exact ⟨inRun .advance 0 12, rfl, fun _ => rfl, by decide⟩

/-- The reading clauses of the tail statements are met by `witness_readable`, those on where an operation is issued by
`witness_issued`, `witness_dispatch` and `witness_dispatch_fast`; here the words beyond the extent. -/
theorem witness_TailWordsGoIntoBAndA :
    (∃ s : State, s.seeded = true ∧ s.mem.extent + 1 = s.pos.toNat + 8) ∧
    (∃ s : State, s.seeded = true ∧ s.mem.extent + 1 = s.pos.toNat + 4) :=
  ⟨⟨atOp .tailwb (countUp 7) ⟨1#32, 2#32, 3#32⟩, rfl, by decide⟩,
   atOp .tailwa (countUp 3) ⟨1#32, 2#32, 3#32⟩, rfl, by decide⟩

/-- The clauses of TAILWB and TAILWA under the invariant, at the lowest and the highest remaining length. -/
theorem witness_TailWordsGoIntoBAndA_fast (h : Config.fastpath = true) :
    ((inRun .tailwb 12 8).Inv ∧ (inRun .tailwb 12 8).upc = .op .tailwb) ∧
    ((inRun .tailwb 0 11).Inv ∧ (inRun .tailwb 0 11).upc = .op .tailwb) ∧
    ((inRun .tailwa 12 4).Inv ∧ (inRun .tailwa 12 4).upc = .op .tailwa) ∧
    ((inRun .tailwa 0 11).Inv ∧ (inRun .tailwa 0 11).upc = .op .tailwa) :=
  ⟨⟨inRun_inv (by decide) (by decide) ⟨by decide, by decide, fastPath_of_aligned h rfl rfl⟩, rfl⟩,
   ⟨inRun_inv (by decide) (by decide) ⟨by decide, by decide, fastPath_of_aligned h rfl rfl⟩, rfl⟩,
   ⟨inRun_inv (by decide) (by decide) ⟨by decide, by decide, fastPath_of_aligned h rfl rfl⟩, rfl⟩,
   ⟨inRun_inv (by decide) (by decide) ⟨by decide, by decide, fastPath_of_aligned h rfl rfl⟩, rfl⟩⟩

/-- TAILWB after TAIL9 and TAILWA after TAIL5 under the invariant, at both ends of the remaining length. -/
theorem witness_TailWordsGoIntoBAndA_after (h : Config.fastpath = true) :
    (∀ rem ∈ [9, 11], ∃ s t, s.Inv ∧ s.upc = .op .tail9 ∧ exec .tail9 s = .next t ∧ t.upc = .op .tailwb ∧
      t.rem.toNat = rem) ∧
    (∀ rem ∈ [5, 7], ∃ s t, s.Inv ∧ s.upc = .op .tail5 ∧ exec .tail5 s = .next t ∧ t.upc = .op .tailwa ∧
      t.rem.toNat = rem) ∧
    (∀ rem ∈ [8, 11], ∃ s t, s.Inv ∧ s.upc = .op .tailwb ∧ exec .tailwb s = .next t ∧ t.rem.toNat = rem) := by
  have hp : ∀ m : State, m.baseHeld = true → m.base % 4 = 0 → ∀ x y : Instr, byPath m x y = some (.op x) :=
    fun m hh hb x y => byPath_of_fastPath (fastPath_of_aligned h hh hb) x y
  refine ⟨fun rem hr => ?_, fun rem hr => ?_, fun rem hr => ?_⟩ <;>
    simp only [List.mem_cons, List.not_mem_nil, or_false] at hr <;> rcases hr with rfl | rfl
  · have he : exec .tail9 (inRun .tail9 0 9) = retire .tail9
        ((inRun .tail9 0 9).setAcc ⟨1#32, 2#32, 3#32 + placeByte 0#8 8⟩) := rfl
    exact ⟨inRun .tail9 0 9, _, inRun_inv (by decide) (by decide) ⟨by decide, by decide⟩, rfl,
      he.trans (retire_of_successor (hp _ rfl rfl _ _)), rfl, rfl⟩
  · have he : exec .tail9 (inRun .tail9 0 11) = retire .tail9
        ((inRun .tail9 0 11).setAcc ⟨1#32, 2#32, 3#32 + placeByte 0#8 8⟩) := rfl
    exact ⟨inRun .tail9 0 11, _, inRun_inv (by decide) (by decide) ⟨by decide, by decide⟩, rfl,
      he.trans (retire_of_successor (hp _ rfl rfl _ _)), rfl, rfl⟩
  · have he : exec .tail5 (inRun .tail5 0 5) = retire .tail5
        ((inRun .tail5 0 5).setAcc ⟨1#32, 2#32 + placeByte 0#8 0, 3#32⟩) := rfl
    exact ⟨inRun .tail5 0 5, _, inRun_inv (by decide) (by decide) ⟨by decide, by decide, fun _ => by decide⟩, rfl,
      he.trans (retire_of_successor (hp _ rfl rfl _ _)), rfl, rfl⟩
  · have he : exec .tail5 (inRun .tail5 0 7) = retire .tail5
        ((inRun .tail5 0 7).setAcc ⟨1#32, 2#32 + placeByte 0#8 0, 3#32⟩) := rfl
    exact ⟨inRun .tail5 0 7, _, inRun_inv (by decide) (by decide) ⟨by decide, by decide, fun _ => by decide⟩, rfl,
      he.trans (retire_of_successor (hp _ rfl rfl _ _)), rfl, rfl⟩
  · exact ⟨inRun .tailwb 0 8, _, inRun_inv (by decide) (by decide) ⟨by decide, by decide, fastPath_of_aligned h rfl rfl⟩,
      rfl, rfl, rfl⟩
  · exact ⟨inRun .tailwb 0 11, _, inRun_inv (by decide) (by decide) ⟨by decide, by decide, fastPath_of_aligned h rfl rfl⟩,
      rfl, rfl, rfl⟩

theorem witness_TailLeavesLowByteOfC : ∃ s t, Instr.tail9.family = .tail ∧ exec .tail9 s = .next t :=
  ⟨atOp .tail9 (countUp 11) ⟨1#32, 2#32, 3#32⟩, _, rfl, rfl⟩

theorem witness_Fin1Result : (4#32).toNat ≤ 4 ∧ (0#32).toNat ≤ 4 := by decide

theorem witness_Fin4Result : Instr.result ∈ [Instr.fin5, .fin6, .result] ∧
    ∃ t, exec .result (inRun .result 0 0) = .next t := ⟨by decide, _, rfl⟩

theorem witness_RotationMovesEveryBit : (31 < 32 ∧ 31 < 32) ∧ (0 < 32 ∧ 0 < 32) := by decide

theorem witness_WordReadIsLittleEndian : ∃ w, readWord (atOp .absorb (countUp 4) ⟨1#32, 2#32, 3#32⟩) 0 = some w := ⟨_, rfl⟩

theorem witness_ReadsAreAdmitted :
    ((inRun .absorb 12 12).Inv ∧ (inRun .absorb 12 12).upc = .op .absorb ∧ 0 < (readSpan .absorb).2) ∧
    ((inRun .tail11 0 11).Inv ∧ (inRun .tail11 0 11).upc = .op .tail11 ∧ 0 < (readSpan .tail11).2) ∧
    ((inRun .tail1 0 1).Inv ∧ (inRun .tail1 0 1).upc = .op .tail1 ∧ 0 < (readSpan .tail1).2) :=
  ⟨⟨inRun_inv (by decide) (by decide) (show 12 ≤ _ by decide), rfl, by decide⟩,
   ⟨inRun_inv (by decide) (by decide) (show _ = 11 by decide), rfl, by decide⟩,
   ⟨inRun_inv (by decide) (by decide) ⟨by decide, by decide, fun _ => by decide⟩, rfl, by decide⟩⟩

/-- One byte short of the extent, and one byte short of `LEN`. -/
theorem witness_UnreadableInputHasNoStep :
    (∃ s : State, s.seeded = true ∧ 0 < (readSpan .tail5).2 ∧ ¬ s.canRead (readSpan .tail5).2 ∧ s.len.toNat = 5) ∧
    (∃ s : State, s.seeded = true ∧ 0 < (readSpan .absorb).2 ∧ ¬ s.canRead (readSpan .absorb).2 ∧ s.mem.extent = 12) :=
  ⟨⟨{ atOp .tail5 (countUp 4) ⟨1#32, 2#32, 3#32⟩ with len := 5#32 }, rfl, by decide, fun h => absurd h.2 (by decide),
     by decide⟩,
   { atOp .absorb (countUp 12) ⟨1#32, 2#32, 3#32⟩ with len := 11#32 }, rfl, by decide, fun h => absurd h.1 (by decide),
     by decide⟩

theorem witness_InputIsNeverWritten :
    ∃ s t, step s = .next t ∧ ∀ (bytes : List Byte) (rs : List HostRequest), s.requests ≠ .supply bytes :: rs :=
  ⟨inRun .mix1 0 12, _, rfl, fun _ _ h => by cases h⟩

theorem witness_OperationFrame : (∃ t, exec .mix1 (inRun .mix1 0 12) = .next t) ∧ Instr.mix1 ∉ writesB ∧
    Instr.mix2 ∉ writesC ∧ Instr.mix3 ∉ writesA := ⟨⟨_, rfl⟩, by decide, by decide, by decide⟩

theorem witness_StepKeepsTheInvariant :
    ((inRun .mix1 0 12).Inv ∧ ∃ t, step (inRun .mix1 0 12) = .next t) ∧
    (atDone.Inv ∧ ∃ t, step (asked (.write .ctrl 1) atDone) = .next t) :=
  ⟨⟨inRun_inv (by decide) (by decide) (show 12 ≤ _ by decide), _, rfl⟩, atDone_inv, _, rfl⟩

/-- Ready to run, at rest, with START pending; `ready 0` has the empty input. -/
def ready (n : Nat) : State :=
  asked (.write .ctrl 1) { atOp .init (countUp n) ⟨1#32, 2#32, 3#32⟩ with upc := .idle, seeded := false }

theorem witness_RunComputesHashBytes :
    ((ready 0).upc.busy = false ∧ (ready 0).ReadyToRun ∧ (ready 0).requests = [.write .ctrl 1]) ∧
    ((ready 13).upc.busy = false ∧ (ready 13).ReadyToRun ∧ (ready 13).requests = [.write .ctrl 1]) :=
  ⟨⟨rfl, ⟨rfl, fun _ => rfl, by decide⟩, rfl⟩, rfl, ⟨rfl, fun _ => rfl, by decide⟩, rfl⟩

/-- Two states that differ in `BASE`, in the accumulators, in a byte beyond `LEN`, and in the resting value. -/
theorem witness_DigestDependsOnDataAndLengthOnly :
    ∃ s₁ s₂ : State, s₁ ≠ s₂ ∧ s₁.upc.busy = false ∧ s₂.upc.busy = false ∧ s₁.ReadyToRun ∧ s₂.ReadyToRun ∧
      s₁.requests = [.write .ctrl 1] ∧ s₂.requests = [.write .ctrl 1] ∧ s₁.len = s₂.len ∧
      ∀ off, off < s₁.len.toNat → s₁.mem.byteAt off = s₂.mem.byteAt off := by
  refine ⟨ready 3, { ready 3 with
      acc := ⟨9#32, 9#32, 9#32⟩, base := 0x2000, upc := .done, digest := some 1#32, mem := Memory.ofBytes (countUp 4) },
    by decide, rfl, rfl, ⟨rfl, fun _ => rfl, by decide⟩, ⟨rfl, fun _ => rfl, by decide⟩, rfl, rfl, rfl, fun off h => ?_⟩
  have h' : off < 3 := h
  interval_cases off <;> rfl

theorem witness_OnlyTheCanonicalStreamRuns :
    (atInit (countUp 3)).upc = .op .init ∧ (atInit (countUp 3)).ReadyToRun ∧
    (∃ ops, ops = hashStream (atInit (countUp 3)).len.toNat (atInit (countUp 3)).fast) ∧
    (∃ ops, ops ≠ hashStream (atInit (countUp 3)).len.toNat (atInit (countUp 3)).fast) ∧ atDone.upc ≠ .op .init :=
  ⟨rfl, ⟨rfl, fun _ => rfl, by decide⟩, ⟨_, rfl⟩, ⟨[], fun h => by simp [hashStream] at h⟩, by decide⟩

theorem witness_MixStepsAreBijections : ∃ s t, s.len = 0x618CA9B0#32 ∧ exec .init s = .next t :=
  ⟨{ atInit [] with len := 0x618CA9B0#32 }, _, rfl, rfl⟩

theorem witness_FinalStepsAreBijections : ⟨.c, .b, .b, 14⟩ ∈ roundTables.final ∧ ⟨.b, .a, .a, 14⟩ ∈ roundTables.final := by
  decide

theorem witness_AlignedWordReads (h : Config.fastpath = true) :
    ((inRun .absorb 12 12).Inv ∧ (inRun .absorb 12 12).fast = true ∧ (inRun .absorb 12 12).upc = .op .absorb) ∧
    ((inRun .tailwb 12 8).Inv ∧ (inRun .tailwb 12 8).fast = true ∧ (inRun .tailwb 12 8).upc = .op .tailwb) ∧
    ((inRun .tailwa 12 4).Inv ∧ (inRun .tailwa 12 4).fast = true ∧ (inRun .tailwa 12 4).upc = .op .tailwa) :=
  ⟨⟨inRun_inv (by decide) (by decide) (show 12 ≤ _ by decide), fast_of_aligned h rfl, rfl⟩,
   ⟨inRun_inv (by decide) (by decide) ⟨by decide, by decide, fastPath_of_aligned h rfl rfl⟩, fast_of_aligned h rfl, rfl⟩,
   ⟨inRun_inv (by decide) (by decide) ⟨by decide, by decide, fastPath_of_aligned h rfl rfl⟩, fast_of_aligned h rfl, rfl⟩⟩

theorem witness_StartBeginsARun :
    ((asked (.write .ctrl 1) State.reset).upc.busy = false ∧
      (asked (.write .ctrl 1) State.reset).requests = .write .ctrl 1 :: []) ∧
    ((asked (.write .ctrl 0) atDone).upc.busy = false ∧ (asked (.write .ctrl 0) atDone).requests = .write .ctrl 0 :: []) ∧
    ((asked (.write .ctrl 2) atDone).upc.busy = false ∧ 2 ≤ 2 ∧ 2 < 2 ^ 32 ∧
      (asked (.write .ctrl 2) atDone).requests = .write .ctrl 2 :: []) ∧
    ((asked (.write .ctrl (2 ^ 32 - 1)) atDone).upc.busy = false ∧ 2 ≤ 2 ^ 32 - 1 ∧ 2 ^ 32 - 1 < 2 ^ 32) ∧
    (asked (.read .ctrl) atDone).requests = .read .ctrl :: [] ∧
    (∀ v ∈ [1, 3], (asked (.write .ctrl v) (inRun .mix1 0 12)).upc = .op .mix1 ∧
      (asked (.write .ctrl v) (inRun .mix1 0 12)).requests = .write .ctrl v :: []) := by
  refine ⟨⟨rfl, rfl⟩, ⟨rfl, rfl⟩, ⟨rfl, ?_, ?_, rfl⟩, ⟨rfl, ?_, ?_⟩, rfl, fun _ _ => ⟨rfl, rfl⟩⟩ <;> decide

theorem witness_WritesWhileBusyAreRefused :
    ((asked (.write .base 0) (inRun .mix1 0 12)).upc = .op .mix1 ∧ HostReg.base ∈ [HostReg.len, .base, .ctrl] ∧
      (asked (.write .base 0) (inRun .mix1 0 12)).requests = .write .base 0 :: []) ∧
    ((asked (.write .ctrl 3) (inRun .mix1 0 12)).upc = .op .mix1 ∧ HostReg.ctrl ∈ [HostReg.len, .base, .ctrl] ∧
      (asked (.write .ctrl 3) (inRun .mix1 0 12)).requests = .write .ctrl 3 :: []) ∧
    ((asked (.read .status) (inRun .mix1 0 12)).upc = .op .mix1 ∧
      (asked (.read .status) (inRun .mix1 0 12)).requests = .read .status :: []) ∧
    ((asked (.read .len) (inRun .mix1 0 12)).lenHeld = true ∧
      (asked (.read .len) (inRun .mix1 0 12)).requests = .read .len :: []) ∧
    ((asked (.read .base) (inRun .mix1 0 12)).baseHeld = true ∧
      (asked (.read .base) (inRun .mix1 0 12)).requests = .read .base :: []) :=
  ⟨⟨rfl, by decide, rfl⟩, ⟨rfl, by decide, rfl⟩, ⟨rfl, rfl⟩, ⟨rfl, rfl⟩, rfl, rfl⟩

theorem witness_HostMovesNeverDisturbARun :
    (∃ t, (asked (.read .len) (inRun .mix1 0 12)).upc = .op .mix1 ∧ HostRequest.read .len ≠ .reset ∧
      (∀ code : Byte, HostRequest.read .len ≠ .issue code) ∧ step (asked (.read .len) (inRun .mix1 0 12)) = .next t) ∧
    State.reset.upc.busy = false ∧ atDone.upc.busy = false :=
  ⟨⟨_, rfl, by decide, fun _ => by simp, rfl⟩, rfl, rfl⟩

theorem witness_StatusIsAFunctionOfUpc :
    ∀ u ∈ [Upc.idle, .op .init, .op .result, .done], ∃ s : State, s.upc = u ∧ s.requests = .read .status :: [] :=
  fun u _ => ⟨{ asked (.read .status) State.reset with upc := u }, rfl, rfl⟩

/-- The lowest and the highest value of each register. -/
theorem witness_LengthAndBaseReadBack :
    (∀ v ∈ [0, 2 ^ 32 - 1], ∃ s : State, s.upc.busy = false ∧ v < 2 ^ 32 ∧ s.requests = [.write .len v, .read .len]) ∧
    (∀ v ∈ [0, 2 ^ Config.xaddr - 1], ∃ s : State, s.upc.busy = false ∧ v < 2 ^ Config.xaddr ∧
      s.requests = [.write .base v, .read .base]) := by
  have hp : 0 < 2 ^ Config.xaddr := Nat.two_pow_pos _
  refine ⟨fun v hv => ⟨State.reset.setRequests [.write .len v, .read .len], rfl, ?_, rfl⟩,
    fun v hv => ⟨State.reset.setRequests [.write .base v, .read .base], rfl, ?_, rfl⟩⟩
  · simp only [List.mem_cons, List.not_mem_nil, or_false] at hv
    rcases hv with rfl | rfl <;> decide
  · simp only [List.mem_cons, List.not_mem_nil, or_false] at hv
    rcases hv with rfl | rfl <;> omega

theorem witness_DigestIsReadOnlyAtDone :
    (∃ t, exec .result (inRun .result 0 0) = .next t) ∧
    ((asked (.read .digest) State.reset).upc ≠ .done ∧ (asked (.read .digest) State.reset).requests = .read .digest :: []) ∧
    (∃ s : State, s.Inv ∧ s.upc = .done ∧ s.requests = .read .digest :: []) ∧ (State.reset.Inv ∧ State.reset.upc ≠ .done) ∧
    (∀ r ∈ [HostRequest.read .digest, .write .len 5, .write .ctrl 1, .reset],
      ∃ s t, s.Inv ∧ s.upc = .done ∧ s.requests = r :: [] ∧ step s = .next t) := by
  have hr : ∀ rs, (atDone.setRequests rs).Inv := fun rs =>
    ⟨rfl, Nat.two_pow_pos _, by simp [atDone], fun i hi _ => by cases hi⟩
  refine ⟨⟨_, rfl⟩, ⟨by decide, rfl⟩, ⟨_, hr _, rfl, rfl⟩, ⟨reset_inv, by decide⟩, fun r h => ?_⟩
  simp only [List.mem_cons, List.not_mem_nil, or_false] at h
  rcases h with rfl | rfl | rfl | rfl <;> exact ⟨_, _, hr _, rfl, rfl, rfl⟩

theorem witness_UnwrittenReadsAreRefused :
    (State.reset.lenHeld = false ∧ State.reset.baseHeld = false ∧ State.reset.seeded = false ∧ Instr.mix1 ≠ .init ∧
      State.reset.digest = none) ∧
    (asked (.read .len) State.reset).requests = .read .len :: [] ∧
    (asked (.read .base) State.reset).requests = .read .base :: [] ∧
    (asked (.read .digest) State.reset).requests = .read .digest :: [] := by decide

/-- The clause on `BASE` with `FASTPATH` true: its other premises, met together. -/
theorem witness_UnwrittenReadsAreRefused_base :
    (∀ n ∈ [8, 4], ∃ s : State, s.baseHeld = false ∧ s.lenHeld = true ∧ s.len.toNat = n) ∧
    (∀ n ∈ [20, 16], ∃ s : State, s.baseHeld = false ∧ s.seeded = true ∧ s.rem.toNat = n) ∧
    (∃ s : State, s.baseHeld = false ∧ s.seeded = true ∧ s.canRead 9 ∧ s.canRead 5) := by
  refine ⟨fun n hn => ⟨{ State.reset with lenHeld := true, len := BitVec.ofNat 32 n }, rfl, rfl, ?_⟩,
    fun n hn => ⟨{ State.reset with seeded := true, rem := BitVec.ofNat 32 n }, rfl, rfl, ?_⟩,
    { inRun .tail9 0 9 with baseHeld := false }, rfl, rfl, ⟨by decide, by decide⟩, by decide, by decide⟩
  · simp only [List.mem_cons, List.not_mem_nil, or_false] at hn
    rcases hn with rfl | rfl <;> rfl
  · simp only [List.mem_cons, List.not_mem_nil, or_false] at hn
    rcases hn with rfl | rfl <;> rfl

/-- The clause on `BASE` with `FASTPATH` false: an operation that completes with `BASE` unwritten there. -/
theorem witness_UnwrittenReadsAreRefused_portable (h : Config.fastpath = false) :
    ∃ s t, s.baseHeld = false ∧ exec .tail9 s = .next t := by
  have hf : ∀ m : State, m.baseHeld = false → byPath m .tailwb .tail8 = some (.op .tail8) := fun m hm =>
    byPath_of_fastPath (b := false) (by simp [fastPath, hm, h]) _ _
  exact ⟨{ inRun .tail9 0 9 with baseHeld := false }, _, rfl, retire_of_successor (i := .tail9) (hf _ rfl)⟩

theorem witness_ResetReturnsToIdle :
    (asked .reset (inRun .mix1 0 12)).requests = .reset :: [] ∧
    (atDone.setRequests [.reset, .read .ctrl]).requests = .reset :: .read .ctrl :: [] := ⟨rfl, rfl⟩

/-- The two states of the third clause: one inside a run, one at DONE with a digest. -/
theorem witness_ResetLeavesNoValue :
    (∃ s₁ s₂ : State, s₁ ≠ s₂ ∧ s₁.requests = .reset :: [] ∧ s₂.requests = .reset :: [] ∧ s₁.mem = s₂.mem) ∧
    (atDone.setRequests [.reset, .read .ctrl]).requests = .reset :: .read .ctrl :: [] :=
  ⟨⟨asked .reset (inRun .mix1 0 12), asked .reset { atDone with mem := (inRun .mix1 0 12).mem }, by decide, rfl, rfl, rfl⟩,
   rfl⟩

theorem witness_WritesToReadOnlyRegistersAreRefused :
    (asked (.write .status 0) State.reset).requests = .write .status 0 :: [] ∧
    (asked (.write .digest 7) atDone).requests = .write .digest 7 :: [] := ⟨rfl, rfl⟩

theorem witness_SuppliedInputReadsBack :
    ((asked (.supply [0#8, 5#8]) atDone).upc.busy = false ∧
      (asked (.supply [0#8, 5#8]) atDone).requests = .supply [0#8, 5#8] :: []) ∧
    ((asked (.supply []) (inRun .mix1 0 12)).upc = .op .mix1 ∧
      (asked (.supply []) (inRun .mix1 0 12)).requests = .supply [] :: []) := ⟨⟨rfl, rfl⟩, rfl, rfl⟩

theorem witness_CodesOutOfPlaceAreRefused :
    decode [0x11#8] = .ok (.mix1, []) ∧
    (∀ u ∈ [Upc.idle, .done, .op .mix2], ∃ s : State, s.requests = .issue 0x11#8 :: [] ∧ s.upc = u ∧ s.upc ≠ .op .mix1) := by
  refine ⟨rfl, fun u hu => ⟨{ asked (.issue 0x11#8) State.reset with upc := u }, rfl, rfl, ?_⟩⟩
  simp only [List.mem_cons, List.not_mem_nil, or_false] at hu
  rcases hu with rfl | rfl | rfl <;> decide

theorem witness_RunRegistersSurvive :
    (∃ t, exec .init (atInit []) = .next t) ∧ (∃ t, exec .advance (inRun .advance 0 13) = .next t) ∧
    (Instr.mix1 ≠ .init ∧ Instr.mix1 ≠ .advance ∧ ∃ t, exec .mix1 (inRun .mix1 0 12) = .next t) ∧
    ((inRun .tail1 0 1).seeded = true ∧ 0 < (readSpan .tail1).2 ∧ (inRun .tail1 0 1).baseReady) ∧
    (∃ s₁ s₂ t₁ t₂, exec .init s₁ = .next t₁ ∧ exec .advance s₂ = .next t₂ ∧ t₁.rem = t₂.rem ∧ t₁.fast = t₂.fast) :=
  ⟨⟨_, rfl⟩, ⟨_, rfl⟩, ⟨by decide, by decide, _, rfl⟩, ⟨rfl, by decide, fun _ => rfl⟩,
   atInit (countUp 1), atOp .advance (countUp 13) ⟨1#32, 2#32, 3#32⟩, _, _, rfl, rfl, rfl, rfl⟩

/-- Streams that are no run are refused in every state (R88, U13): what is left of a run, inside it; no stream, at DONE; and
INIT alone, where INIT itself would be refused for an unwritten `LEN`. -/
theorem test_streams_that_are_no_run :
    stopOf (runStream (encodeAll (finalRound ++ [.result])) (inRun .fin1 0 0)) = some (.inr .notARun) ∧
    stopOf (runStream [] atDone) = some (.inr .notARun) ∧
    stopOf (runStream (encodeAll [.init]) { State.reset with upc := .op .init }) = some (.inr .notARun) := by decide

end Sys2Proof.Tests
end

section
/-! Proofs of the statements on the registers (spec/10_state.md). First the rules they share: how a host request is served,
what the sequencer's table depends on, and what an operation that reads the input can answer. -/

namespace Sys2Proof.Machine

/-! ### The service of a host request -/

theorem hostRead_len_of_not_held {s : State} (h : s.lenHeld = false) :
    hostRead .len s = .refused .readOfUnwrittenState := by simp [hostRead, h]

theorem hostRead_base_of_not_held {s : State} (h : s.baseHeld = false) :
    hostRead .base s = .refused .readOfUnwrittenState := by simp [hostRead, h]

theorem Upc.isDone_iff {u : Upc} : u.isDone = true ↔ u = .done := by cases u <;> simp [Upc.isDone]

/-- At `DONE` the read of `DIGEST` answers the value it holds (R35). -/
theorem hostRead_digest_of_done {s : State} {d : Word} (hu : s.upc = .done) (hd : s.digest = some d) :
    hostRead .digest s = .next (s.setReply d.toNat) := by
  simp [hostRead, readDigest, hu, hd, Upc.isDone]

theorem hostRead_digest_of_not_done {s : State} (hu : s.upc ≠ .done) :
    hostRead .digest s = .refused .digestNotReady := by
  have h : s.upc.isDone = false := Bool.eq_false_iff.mpr (mt Upc.isDone_iff.mp hu)
  simp [hostRead, readDigest, h]

theorem hostRead_digest_of_none {s : State} (hd : s.digest = none) :
    hostRead .digest s = .refused .digestNotReady := by
  simp [hostRead, readDigest, hd]

/-- A pending reset is served by the reset of the block, in every state (R240). -/
theorem step_of_reset {s : State} {rs : List HostRequest} (h : s.requests = .reset :: rs) :
    step s = .next (resetBlock (s.setRequests rs)) := step_of_request h

@[simp] theorem statusWord_idle : statusWord .idle = 0#32 := by decide
@[simp] theorem statusWord_op (i : Instr) : statusWord (.op i) = 1#32 := by
  simp [statusWord, Upc.busy, Upc.isDone]
@[simp] theorem statusWord_done : statusWord .done = 2#32 := by decide

/-- A host request served at `DONE` keeps `DONE` and `DIGEST`, unless it is a reset or begins a run (R33, R35). -/
theorem serve_next_of_done {r : HostRequest} {s t : State} (hu : s.upc = .done) (h : serve r s = .next t) :
    (t.upc = .done ∧ t.digest = s.digest) ∨
    (t.digest = none ∧ ((r = .reset ∧ t.upc = .idle) ∨ ((∃ v, r = .write .ctrl v) ∧ t.upc = .op .init))) := by
  cases r with
  | write reg v =>
    obtain ⟨-, ⟨-, rfl⟩ | ⟨-, rfl⟩ | ⟨rfl, rfl⟩ | ⟨-, rfl⟩⟩ := hostWrite_next h
    · exact .inl ⟨hu, rfl⟩
    · exact .inl ⟨hu, rfl⟩
    · exact .inr ⟨rfl, .inr ⟨⟨v, rfl⟩, rfl⟩⟩
    · exact .inl ⟨hu, rfl⟩
  | read reg => obtain ⟨v, rfl⟩ := hostRead_next h; exact .inl ⟨hu, rfl⟩
  | supply bytes => obtain ⟨-, rfl⟩ := supplyInput_next h; exact .inl ⟨hu, rfl⟩
  | reset => cases h; exact .inr ⟨rfl, .inl ⟨rfl, rfl⟩⟩
  | issue code => obtain ⟨i, -, -, hi, -⟩ := issueCode_next h; rw [hu] at hi; cases hi

/-! ### The successor table -/

/-- Where the path condition has a value, it is the one of R58. -/
theorem fastPath_eq_some {s : State} {b : Bool} (h : fastPath s = some b) : b = s.fast := by
  unfold fastPath at h
  unfold State.fast
  split at h
  · rw [Bool.and_comm]; exact (Option.some.inj h).symm
  · split at h
    · cases h
    · next hf => cases h; simp [hf]

/-- Where a row pair of R181 gives a successor, it is the one that the path picks. -/
theorem byPath_eq_some_fast {s : State} {x y : Instr} {u : Upc} (h : byPath s x y = some u) :
    u = .op (if s.fast then x else y) := by
  obtain ⟨b, hb, rfl⟩ := Option.map_eq_some_iff.mp h
  rw [fastPath_eq_some hb]

theorem byPath_eq_none {s : State} (h : fastPath s = none) (x y : Instr) : byPath s x y = none := by
  simp [byPath, h]

theorem byPath_congr {s t : State} (h : fastPath s = fastPath t) (x y : Instr) : byPath s x y = byPath t x y := by
  simp [byPath, h]

theorem loopTarget_of_eight {s : State} (h : s.rem.toNat = 8) : loopTarget s = byPath s .tailwb .tail8 := by
  simp [loopTarget, h]

theorem loopTarget_of_four {s : State} (h : s.rem.toNat = 4) : loopTarget s = byPath s .tailwa .tail4 := by
  simp [loopTarget, h]

/-- The two rows of the dispatch that name the path have no target while the path condition has no value (R41). -/
theorem loopTarget_eq_none {s : State} (hf : fastPath s = none) (h : s.rem.toNat = 8 ∨ s.rem.toNat = 4) :
    loopTarget s = none := by
  rcases h with h | h
  · rw [loopTarget_of_eight h, byPath_eq_none hf]
  · rw [loopTarget_of_four h, byPath_eq_none hf]

/-- Outside the two rows that name the path, the dispatch looks at `rem` alone (R181). -/
theorem loopTarget_congr_rem {s t : State} (hr : s.rem = t.rem) (h8 : t.rem.toNat ≠ 8) (h4 : t.rem.toNat ≠ 4) :
    loopTarget s = loopTarget t := by
  unfold loopTarget
  rw [hr]
  split <;> simp_all

theorem loopTarget_congr {s t : State} (hr : s.rem = t.rem) (hf : fastPath s = fastPath t) :
    loopTarget s = loopTarget t := by
  simp only [loopTarget, hr, byPath_congr hf]

/-- Where the dispatch has a target in two states that agree on `rem` and on the path, it has the same target. -/
theorem loopTarget_unique {s t : State} {u v : Upc} (hr : s.rem = t.rem) (hf : s.fast = t.fast)
    (hu : loopTarget s = some u) (hv : loopTarget t = some v) : u = v := by
  by_cases h8 : t.rem.toNat = 8
  · rw [loopTarget_of_eight (hr ▸ h8)] at hu
    rw [loopTarget_of_eight h8] at hv
    rw [byPath_eq_some_fast hu, byPath_eq_some_fast hv, hf]
  by_cases h4 : t.rem.toNat = 4
  · rw [loopTarget_of_four (hr ▸ h4)] at hu
    rw [loopTarget_of_four h4] at hv
    rw [byPath_eq_some_fast hu, byPath_eq_some_fast hv, hf]
  · rw [loopTarget_congr_rem hr h8 h4, hv] at hu
    exact (Option.some.inj hu).symm

/-- The sequencer's table looks at nothing but `rem` and the path condition. -/
theorem successor_congr {s t : State} (hr : s.rem = t.rem) (hf : fastPath s = fastPath t) (i : Instr) :
    successor i s = successor i t := by
  cases i
  case init | advance => exact loopTarget_congr hr hf
  case tail9 | tail5 => exact byPath_congr hf _ _
  all_goals rfl

/-- Every operation has a successor where the host's duty on `BASE` is done (R243 step 3). -/
theorem successor_isSome {s : State} (h : s.baseReady) (i : Instr) : ∃ u, successor i s = some u := by
  have hf := fastPath_eq h
  cases i
  case init | advance => exact loopTarget_isSome hf
  case tail9 | tail5 => exact ⟨_, byPath_of_fastPath hf _ _⟩
  all_goals exact ⟨_, rfl⟩

/-! ### What an operation answers -/

theorem execInit_of_lenHeld {s : State} (h : s.lenHeld = true) :
    execInit s = retire .init (s.seed ⟨seedK + s.len, seedK + s.len, seedK + s.len⟩ 0#32 s.len) := by
  simp [execInit, h]

theorem execInit_of_not_lenHeld {s : State} (h : s.lenHeld = false) : execInit s = .refused .readOfUnwrittenState := by
  simp [execInit, h]

theorem execAdvance_of_seeded {s : State} (h : s.seeded = true) :
    execAdvance s = retire .advance (s.setCursor (s.pos + blockSize) (s.rem - blockSize)) :=
  onWorking_of_seeded h _

/-- Without values in the working registers no operation but INIT goes on (R41, U3). -/
theorem exec_of_not_seeded {i : Instr} {s : State} (h : s.seeded = false) (hi : i ≠ .init) :
    exec i s = .refused .readOfUnwrittenState := by
  cases i
  case init => exact absurd rfl hi
  all_goals exact onWorking_of_not_seeded h _

/-- After INIT and ADVANCE `upc` is the target of the dispatch in the state they leave (R181). -/
theorem exec_next_loopTarget {i : Instr} {s t : State} (hi : i = .init ∨ i = .advance) (h : exec i s = .next t) :
    loopTarget t = some t.upc := by
  obtain ⟨m, u, -, hu, rfl⟩ := exec_next h
  rcases hi with rfl | rfl <;> exact hu

/-- No operation but INIT and ADVANCE writes the read position and the remaining length (R24, R25). -/
theorem exec_next_cursor {i : Instr} {s t : State} (hi : i ≠ .init) (ha : i ≠ .advance) (h : exec i s = .next t) :
    t.pos = s.pos ∧ t.rem = s.rem := by
  cases i
  case init => exact absurd rfl hi
  case advance => exact absurd rfl ha
  case absorb => obtain ⟨-, w, -, ht⟩ := execAbsorb_next h; simp [ht]
  case result => obtain ⟨-, ht⟩ := execResult_next h; simp [ht]
  case tailwa | tailwb => obtain ⟨-, w, -, u, ht, -⟩ := addTailWord_next h; simp [ht]
  case mix1 | mix2 | mix3 | mix4 | mix5 | mix6 => obtain ⟨-, u, ht, -⟩ := mixOp_next h; simp [ht]
  case fin1 | fin2 | fin3 | fin4 | fin5 | fin6 => obtain ⟨-, u, ht, -⟩ := finalOp_next h; simp [ht]
  all_goals obtain ⟨-, v, -, u, ht, -⟩ := addTailByte_next h; simp [ht]

/-! ### Operations that read the input -/

theorem readWord_eq_some {s : State} {off : Nat} {w : Word} (h : readWord s off = some w) :
    off + 4 ≤ s.len.toNat ∧ off + 4 ≤ s.mem.extent := by
  by_contra hc
  rw [readWord_eq_none hc] at h
  cases h

/-- A block read answers exactly where its twelve bytes are admitted (R61, R111). -/
theorem exists_readBlock_iff {s : State} : (∃ w, readBlock s = some w) ↔ s.canRead 12 := by
  constructor
  · rintro ⟨w, h⟩
    unfold readBlock at h
    split at h
    · next h₂ => exact readWord_eq_some h₂
    · cases h
  · rintro ⟨hl, he⟩
    unfold readBlock
    rw [readWord_of_le (off := s.pos.toNat) (by omega) (by omega), readWord_of_le (off := s.pos.toNat + 4) (by omega)
      (by omega), readWord_of_le (off := s.pos.toNat + 8) (by omega) (by omega)]
    exact ⟨_, rfl⟩

theorem addTailByte_of_canRead {i : Instr} {r : Reg} {index shift : Nat} {s : State} (hs : s.seeded = true)
    (h : s.canRead (index + 1)) : ∃ x, addTailByte i r index shift s = retire i (s.setAcc x) := by
  rw [addTailByte, onWorking_of_seeded hs, readByte_of_le (off := s.pos.toNat + index) h.1 h.2]
  exact ⟨_, rfl⟩

theorem addTailWord_of_canRead {i : Instr} {r : Reg} {index : Nat} {s : State} (hs : s.seeded = true)
    (h : s.canRead (index + 4)) : ∃ x, addTailWord i r index s = retire i (s.setAcc x) := by
  rw [addTailWord, onWorking_of_seeded hs, readWord_of_le (off := s.pos.toNat + index) h.1 h.2]
  exact ⟨_, rfl⟩

theorem execAbsorb_of_canRead {s : State} (hs : s.seeded = true) (h : s.canRead 12) :
    ∃ x, execAbsorb s = retire .absorb (s.setAcc x) := by
  obtain ⟨w, hw⟩ := exists_readBlock_iff.mpr h
  rw [execAbsorb, onWorking_of_seeded hs, hw]
  exact ⟨_, rfl⟩

/-- An operation whose input is readable writes accumulators only and then takes its successor. -/
theorem exec_of_canRead {i : Instr} {s : State} (hs : s.seeded = true) (hr : 0 < (readSpan i).2)
    (h : s.canRead (readSpan i).2) : ∃ x, exec i s = retire i (s.setAcc x) := by
  cases i
  case absorb => exact execAbsorb_of_canRead hs h
  case tailwa | tailwb => exact addTailWord_of_canRead hs h
  case tail1 | tail2 | tail3 | tail4 | tail5 | tail6 | tail7 | tail8 | tail9 | tail10 | tail11 =>
    exact addTailByte_of_canRead hs h
  all_goals exact absurd hr (Nat.lt_irrefl 0)

/-- If an operation that reads the input answers a next state, its input was readable (R61, R62). -/
theorem canRead_of_exec_next {i : Instr} {s t : State} (hr : 0 < (readSpan i).2) (h : exec i s = .next t) :
    s.canRead (readSpan i).2 := by
  cases i
  case absorb => obtain ⟨-, w, hw, -⟩ := execAbsorb_next h; exact exists_readBlock_iff.mp ⟨w, hw⟩
  case tailwa | tailwb => obtain ⟨-, w, hw, -⟩ := addTailWord_next h; exact readWord_eq_some hw
  case tail1 | tail2 | tail3 | tail4 | tail5 | tail6 | tail7 | tail8 | tail9 | tail10 | tail11 =>
    obtain ⟨-, v, hv, -⟩ := addTailByte_next h
    obtain ⟨hl, he, -⟩ := readByte_eq_some hv
    exact ⟨hl, he⟩
  all_goals exact absurd hr (Nat.lt_irrefl 0)

/-- An operation that reads the input completes exactly where what it reads is admitted (R61). -/
theorem exec_completes_iff_canRead {i : Instr} {s : State} (hs : s.seeded = true) (hr : 0 < (readSpan i).2)
    (hb : s.baseReady) : (∃ t, exec i s = .next t) ↔ s.canRead (readSpan i).2 := by
  refine ⟨fun ⟨t, h⟩ => canRead_of_exec_next hr h, fun h => ?_⟩
  obtain ⟨x, hx⟩ := exec_of_canRead hs hr h
  obtain ⟨u, hu⟩ := successor_isSome (s := s.setAcc x) hb i
  exact ⟨_, hx.trans (retire_of_successor hu)⟩

/-! ### `BASE` on the portable path -/

/-- The state with another `BASE` and another mark on it. -/
def State.withBase (s : State) (base : Nat) (held : Bool) : State := { s with base := base, baseHeld := held }

/-- An outcome whose next state, if it has one, is changed by `f`. -/
def mapNext (f : State → State) : Outcome → Outcome
  | .next s => .next (f s)
  | .fault r => .fault r
  | .refused r => .refused r

theorem fastPath_of_portable (h : Config.fastpath = false) (s : State) : fastPath s = some false := by
  simp [fastPath, h]

theorem onWorking_withBase (s : State) (base : Nat) (held : Bool) (k : Outcome) :
    onWorking (s.withBase base held) (mapNext (·.withBase base held) k) =
      mapNext (·.withBase base held) (onWorking s k) := by
  change (if s.seeded then _ else _) = mapNext _ (if s.seeded then _ else _)
  split <;> rfl

theorem onInput_mapNext {α : Type} (f : State → State) (v : Option α) (k : α → Outcome) :
    onInput v (fun x => mapNext f (k x)) = mapNext f (onInput v k) := by
  cases v <;> rfl

section Portable
variable (hf : Config.fastpath = false) (base : Nat) (held : Bool)
include hf

theorem retire_withBase (i : Instr) (m : State) :
    retire i (m.withBase base held) = mapNext (·.withBase base held) (retire i m) := by
  have hp : fastPath (m.withBase base held) = fastPath m := by
    rw [fastPath_of_portable hf, fastPath_of_portable hf]
  unfold retire
  rw [successor_congr (s := m.withBase base held) (t := m) rfl hp i]
  split <;> rfl

theorem execInit_withBase (s : State) :
    execInit (s.withBase base held) = mapNext (·.withBase base held) (execInit s) := by
  cases hl : s.lenHeld with
  | true =>
    rw [execInit_of_lenHeld hl, execInit_of_lenHeld (s := s.withBase base held) hl, ← retire_withBase hf]
    rfl
  | false => rw [execInit_of_not_lenHeld hl, execInit_of_not_lenHeld (s := s.withBase base held) hl]; rfl

theorem working_withBase (i : Instr) (s m : State) :
    onWorking (s.withBase base held) (retire i (m.withBase base held)) =
      mapNext (·.withBase base held) (onWorking s (retire i m)) := by
  rw [retire_withBase hf, onWorking_withBase]

theorem reading_withBase {α : Type} (i : Instr) (s : State) (v : Option α) (m : α → State) :
    onWorking (s.withBase base held) (onInput v fun x => retire i ((m x).withBase base held)) =
      mapNext (·.withBase base held) (onWorking s (onInput v fun x => retire i (m x))) := by
  simp only [retire_withBase hf, onInput_mapNext, onWorking_withBase]

theorem addTailByte_withBase (i : Instr) (r : Reg) (index shift : Nat) (s : State) :
    addTailByte i r index shift (s.withBase base held) =
      mapNext (·.withBase base held) (addTailByte i r index shift s) :=
  reading_withBase hf base held i s (readByte s (s.pos.toNat + index)) fun v =>
    s.setAcc (s.acc.add r (placeByte v shift))

theorem addTailWord_withBase (i : Instr) (r : Reg) (index : Nat) (s : State) :
    addTailWord i r index (s.withBase base held) = mapNext (·.withBase base held) (addTailWord i r index s) :=
  reading_withBase hf base held i s (readWord s (s.pos.toNat + index)) fun w => s.setAcc (s.acc.add r w)

/-- With `FASTPATH` false no operation reads `BASE`: its outcome is the same whatever `BASE` holds (R41). -/
theorem exec_withBase (i : Instr) (s : State) :
    exec i (s.withBase base held) = mapNext (·.withBase base held) (exec i s) := by
  cases i
  case init => exact execInit_withBase hf base held s
  case absorb => exact reading_withBase hf base held _ s (readBlock s) fun w => s.setAcc (absorbWords w s.acc)
  case tailwa | tailwb => exact addTailWord_withBase hf base held _ _ _ s
  case tail1 | tail2 | tail3 | tail4 | tail5 | tail6 | tail7 | tail8 | tail9 | tail10 | tail11 =>
    exact addTailByte_withBase hf base held _ _ _ _ s
  case advance => exact working_withBase hf base held _ s (s.setCursor _ _)
  case result => exact working_withBase hf base held _ s (s.setDigest _)
  all_goals exact working_withBase hf base held _ s (s.setAcc _)

end Portable

/-! ### The statements -/

/-- Settles O53: the reads follow from the invariant's clause on `DIGEST`, the last clause from what a host request served at
`DONE` can do. -/
theorem digestIsReadOnlyAtDone : Obligations.DigestIsReadOnlyAtDone := by
  refine ⟨fun s t h => ?_, fun s rs hu hr => ?_, fun s rs hi hu hr => ?_, rfl, fun s hi hu => ?_, fun s t _ hu h => ?_⟩
  · obtain ⟨-, rfl⟩ := execResult_next h
    rfl
  · exact (step_of_request hr).trans (hostRead_digest_of_not_done hu)
  · obtain ⟨d, hd⟩ := Option.isSome_iff_exists.mp (hi.digest.mpr hu)
    exact ⟨d, hd, (step_of_request hr).trans (hostRead_digest_of_done hu hd)⟩
  · exact Option.not_isSome_iff_eq_none.mp (mt hi.digest.mp hu)
  · rcases step_next h with ⟨r, rs, hr, hs⟩ | ⟨-, i, hi, -⟩
    · exact (serve_next_of_done (s := s.setRequests rs) hu hs).imp_right fun ⟨hd, hw⟩ => ⟨hd, r, rs, hr, hw⟩
    · rw [hu] at hi
      cases hi

/-- Settles O54: each read of a register is guarded by its mark, and with `FASTPATH` false none is of `BASE`. -/
theorem unwrittenReadsAreRefused : Obligations.UnwrittenReadsAreRefused := by
  refine ⟨fun s h => execInit_of_not_lenHeld h, fun s rs h hr => ?_, fun s rs h hr => ?_, fun s hf hb => ?_,
    fun s i h hi => exec_of_not_seeded h hi, fun s x p r => rfl, fun s rs h hr => ?_, fun hf i s t base held h => ?_⟩
  · exact (step_of_request hr).trans (hostRead_len_of_not_held h)
  · exact (step_of_request hr).trans (hostRead_base_of_not_held h)
  · have noPath : ∀ m : State, m.baseHeld = s.baseHeld → fastPath m = none := fun m hm =>
      fastPath_eq_none hf (hm.trans hb)
    refine ⟨fun hl hn => ?_, fun hs hn => ?_, fun hs hc => ?_, fun hs hc => ?_⟩
    · exact (execInit_of_lenHeld hl).trans (retire_of_no_successor (loopTarget_eq_none (noPath _ rfl) hn))
    · refine (execAdvance_of_seeded hs).trans (retire_of_no_successor (loopTarget_eq_none (noPath _ rfl) ?_))
      simp only [State.setCursor_rem, blockSize]
      bv_omega
    · obtain ⟨x, hx⟩ := exec_of_canRead (i := .tail9) hs (by decide) hc
      exact hx.trans (retire_of_no_successor (byPath_eq_none (noPath _ rfl) _ _))
    · obtain ⟨x, hx⟩ := exec_of_canRead (i := .tail5) hs (by decide) hc
      exact hx.trans (retire_of_no_successor (byPath_eq_none (noPath _ rfl) _ _))
  · exact (step_of_request hr).trans (hostRead_digest_of_none h)
  · exact (exec_withBase hf base held i s).trans (congrArg (mapNext _) h)

/-- Settles O58, from what each operation writes and the admission of its read. -/
theorem runRegistersSurvive : Obligations.RunRegistersSurvive := by
  refine ⟨fun s t h => ?_, fun s t h => ?_, fun i s t hi ha h => exec_next_cursor hi ha h,
    fun i s hs hr hb => exec_completes_iff_canRead hs hr hb, fun i j s₁ s₂ t₁ t₂ hi hj h₁ h₂ hr hf => ?_⟩
  · obtain ⟨-, u, rfl, -⟩ := execInit_next h
    exact ⟨rfl, rfl⟩
  · obtain ⟨-, u, rfl, -⟩ := execAdvance_next h
    exact ⟨rfl, rfl⟩
  · exact loopTarget_unique hr hf (exec_next_loopTarget hi h₁) (exec_next_loopTarget hj h₂)

/-- Settles O51, by the three kinds of `upc`. -/
theorem statusIsAFunctionOfUpc : Obligations.StatusIsAFunctionOfUpc := by
  refine ⟨fun s rs hr => ?_, fun u => ?_⟩
  · have read : step s = .next { s with requests := rs, reply := some (statusWord s.upc).toNat } := step_of_request hr
    refine ⟨fun hu => ?_, fun i hu => ?_, fun hu => ?_⟩ <;> rw [read, hu] <;> simp
  · cases u <;> simp

/-- Settles O59: reset overwrites every register, so nothing of the state before is left but the input and the requests. -/
theorem resetLeavesNoValue : Obligations.ResetLeavesNoValue := by
  refine ⟨⟨rfl, statusWord_idle, rfl, rfl, rfl, rfl⟩, fun s rs hr => ?_, fun s₁ s₂ rs h₁ h₂ hm => ?_, fun s rs hr => ?_⟩
  · exact ⟨_, step_of_reset hr, rfl, statusWord_idle, rfl, rfl, rfl, rfl⟩
  · rw [step_of_reset h₁, step_of_reset h₂]
    simp only [resetBlock, State.setRequests_mem, State.setRequests_requests, hm]
  · have first := step_of_reset hr
    have second : step (resetBlock (s.setRequests (.read .ctrl :: rs))) = _ := step_of_request rfl
    exact ⟨_, ⟨_, first, _, second, rfl⟩, rfl⟩

end Sys2Proof.Machine
end

section
/-! Proofs of the statements on the input memory (spec/20_memory.md). First the rules they share: when a read answers, what
the invariant says of an operation that reads, what a step leaves of the input, and the alignment of the read position. -/

namespace Sys2Proof.Machine

/-! ### When a read answers -/

/-- A byte read answers exactly where it is admitted (R61). -/
theorem readByte_isSome_iff {s : State} {off : Nat} :
    (readByte s off).isSome = true ↔ off + 1 ≤ s.len.toNat ∧ off + 1 ≤ s.mem.extent := by
  constructor
  · intro h
    obtain ⟨v, hv⟩ := Option.isSome_iff_exists.mp h
    obtain ⟨hl, he, -⟩ := readByte_eq_some hv
    exact ⟨hl, he⟩
  · rintro ⟨hl, he⟩
    exact Option.isSome_of_eq_some (readByte_of_le hl he)

/-- A word read answers exactly where it is admitted (R61). -/
theorem readWord_isSome_iff {s : State} {off : Nat} :
    (readWord s off).isSome = true ↔ off + 4 ≤ s.len.toNat ∧ off + 4 ≤ s.mem.extent := by
  constructor
  · intro h
    obtain ⟨w, hw⟩ := Option.isSome_iff_exists.mp h
    exact readWord_eq_some hw
  · rintro ⟨hl, he⟩
    exact Option.isSome_of_eq_some (readWord_of_le hl he)

/-! ### An operation that reads, inside a run -/

/-- Where the sequencer is at an operation, what it reads has not been consumed yet. -/
theorem readSpan_le_rem {i : Instr} {s : State} (h : phase i s) : (readSpan i).2 ≤ s.rem.toNat := by
  cases i
  case absorb => exact h
  case tail11 => exact Nat.le_of_eq (Eq.symm h)
  case tail1 | tail2 | tail3 | tail4 | tail5 | tail6 | tail7 | tail8 | tail9 | tail10 | tailwa | tailwb => exact h.1
  all_goals exact Nat.zero_le _

theorem State.InRun.readSpan_le_len {s : State} {i : Instr} (h : s.InRun i) :
    s.pos.toNat + (readSpan i).2 ≤ s.len.toNat :=
  calc s.pos.toNat + (readSpan i).2
    _ ≤ s.pos.toNat + s.rem.toNat := Nat.add_le_add_left (readSpan_le_rem h.phase) _
    _ = s.len.toNat := h.split

/-! ### What a step leaves of the input -/

theorem exec_next_mem {i : Instr} {s t : State} (h : exec i s = .next t) : t.mem = s.mem := by
  obtain ⟨m, u, hm, -, rfl⟩ := exec_next h
  exact hm.mem

/-- No host request but the supply of another input changes the input; reset leaves it in place. -/
theorem serve_next_mem {r : HostRequest} {s t : State} (hr : ∀ bytes, r ≠ .supply bytes) (h : serve r s = .next t) :
    t.mem = s.mem := by
  cases r with
  | write reg v => obtain ⟨-, ⟨-, rfl⟩ | ⟨-, rfl⟩ | ⟨-, rfl⟩ | ⟨-, rfl⟩⟩ := hostWrite_next h <;> rfl
  | read reg => obtain ⟨v, rfl⟩ := hostRead_next h; rfl
  | supply bytes => exact absurd rfl (hr bytes)
  | reset => cases h; rfl
  | issue code => obtain ⟨i, -, -, -, hx⟩ := issueCode_next h; exact exec_next_mem hx

/-! ### Alignment -/

theorem State.fast_iff {s : State} : s.fast = true ↔ Config.fastpath = true ∧ s.base % 4 = 0 := by simp [State.fast]

/-- On the fast path the read position is at an address that is a multiple of 4: `BASE` is one, and `pos` is a multiple of
12 (R26, R58). -/
theorem State.InRun.aligned {s : State} {i : Instr} (h : s.InRun i) (hf : s.fast = true) :
    (s.base + s.pos.toNat) % 4 = 0 := by
  have hbase := (State.fast_iff.mp hf).2
  have hpos := h.blocks
  omega

/-! ### The statements -/

/-- Settles O32: what an operation reads lies in the `rem` bytes past `pos`, and `pos + rem = LEN`. -/
theorem readsAreAdmitted : Obligations.ReadsAreAdmitted := by
  refine ⟨fun _ _ => readByte_isSome_iff, fun _ _ => readWord_isSome_iff, fun s i hi hu hr => ?_⟩
  have notInit : i ≠ .init := by
    rintro rfl
    exact absurd hr (Nat.lt_irrefl 0)
  exact (hi.running i hu notInit).readSpan_le_len

/-- Settles O34, from the frame of the operations and of the host requests. -/
theorem inputIsNeverWritten : Obligations.InputIsNeverWritten := by
  refine ⟨fun i s t h => ?_, fun s t h hn => ?_⟩
  · have hm := exec_next_mem h
    exact ⟨hm, fun off => by rw [hm]⟩
  · rcases step_next h with ⟨r, rs, hr, hs⟩ | ⟨-, i, -, hx⟩
    · refine serve_next_mem (s := s.setRequests rs) (fun bytes hb => ?_) hs
      exact hn bytes rs (hb ▸ hr)
    · exact exec_next_mem hx

/-- Settles O47: each word is read a multiple of 4 past the aligned read position, and `phase` holds TAILWB and TAILWA on
the fast path. -/
theorem alignedWordReads : Obligations.AlignedWordReads := by
  refine ⟨fun s hi hf => ⟨fun hu => ?_, fun hu => ?_, fun hu => ?_⟩, fun s hi hu => ?_⟩
  · have ha := (hi.running _ hu (by decide)).aligned hf
    exact ⟨ha, by omega, by omega⟩
  · have ha := (hi.running _ hu (by decide)).aligned hf
    omega
  · exact (hi.running _ hu (by decide)).aligned hf
  · rcases hu with hu | hu
    all_goals
      obtain ⟨-, -, hp⟩ := (hi.running _ hu (by decide)).phase
      exact (fastPath_eq_some hp).symm

end Sys2Proof.Machine
end

section
/-! Proofs of the statements on the encoding (spec/30_encoding.md). First the rules they share: the decoder and the encoder
undo each other, on one code and on a list of them, and the length of a canonical stream can be read off the stream. -/

namespace Sys2Proof

/-! ### One code -/

/-- A code is determined by its two fields (R81). -/
theorem code_eq_of_fields {c d : Byte} (hg : (codeGroup c).toNat = (codeGroup d).toNat)
    (hi : (codeIndex c).toNat = (codeIndex d).toNat) : c = d := by
  simp only [codeGroup, codeIndex, BitVec.extractLsb'_toNat] at hg hi
  bv_omega

@[simp] theorem decodeCode_encodeCode (i : Instr) : decodeCode (encodeCode i) = some i := by cases i <;> rfl

/-- The decoder reads an operation from no code but the operation's own (R82). -/
theorem encodeCode_of_decodeCode {code : Byte} {i : Instr} (h : decodeCode code = some i) : encodeCode i = code := by
  unfold decodeCode at h
  split at h
  all_goals cases h
  all_goals exact code_eq_of_fields (Eq.symm ‹_›) (Eq.symm ‹_›)

theorem decodeCode_eq_some_iff {code : Byte} {i : Instr} : decodeCode code = some i ↔ encodeCode i = code :=
  ⟨encodeCode_of_decodeCode, fun h => h ▸ decodeCode_encodeCode i⟩

/-- The decoder reads nothing exactly from the codes of no operation (R85). -/
theorem decodeCode_eq_none_iff {code : Byte} : decodeCode code = none ↔ ∀ i, encodeCode i ≠ code := by
  simp only [Option.eq_none_iff_forall_ne_some, ne_eq, decodeCode_eq_some_iff]

theorem decode_cons_of_some {code : Byte} {i : Instr} (h : decodeCode code = some i) (rest : List Byte) :
    decode (code :: rest) = .ok (i, rest) := by simp [decode, h]

theorem decode_cons_of_none {code : Byte} (h : decodeCode code = none) (rest : List Byte) :
    decode (code :: rest) = .error (.reserved code) := by simp [decode, h]

theorem encodeCode_injective : Function.Injective encodeCode := fun i j h =>
  Option.some.inj (by rw [← decodeCode_encodeCode i, h, decodeCode_encodeCode])

/-! ### The number of codes -/

theorem Instr.mem_all (i : Instr) : i ∈ Instr.all := by cases i <;> decide

/-- The byte values that spell an operation are the codes of the 29 operations, each once (R82). -/
theorem listed_codes_perm :
    ((List.range 256).filter fun n => (decodeCode (BitVec.ofNat 8 n)).isSome).Perm
      (Instr.all.map fun i => (encodeCode i).toNat) := by
  have distinct : (Instr.all.map fun i => (encodeCode i).toNat).Nodup :=
    List.Nodup.map (fun _ _ h => encodeCode_injective (BitVec.eq_of_toNat_eq h)) (by decide)
  refine (List.perm_ext_iff_of_nodup (List.nodup_range.filter _) distinct).mpr fun n => ?_
  simp only [List.mem_filter, List.mem_range, List.mem_map, Option.isSome_iff_exists, decodeCode_eq_some_iff]
  constructor
  · rintro ⟨hn, i, hi⟩
    exact ⟨i, i.mem_all, by rw [hi]; exact Nat.mod_eq_of_lt hn⟩
  · rintro ⟨i, -, rfl⟩
    exact ⟨(encodeCode i).isLt, i, by simp⟩

/-- Of the 256 byte values, the 29 codes of R82 leave 227 that spell no operation (R85). -/
theorem count_reserved_codes :
    ((List.range 256).filter fun n => (decodeCode (BitVec.ofNat 8 n)).isNone).length = 227 := by
  have listed := listed_codes_perm.length_eq
  have total := List.length_eq_length_filter_add (l := List.range 256)
    fun n => (decodeCode (BitVec.ofNat 8 n)).isSome
  simp only [Option.not_isSome, List.length_range, List.length_map] at listed total
  have operations : Instr.all.length = 29 := rfl
  omega

/-! ### A list of codes -/

@[simp] theorem encodeAll_nil : encodeAll [] = [] := rfl
@[simp] theorem encodeAll_cons (i : Instr) (ops : List Instr) : encodeAll (i :: ops) = encodeCode i :: encodeAll ops := rfl

@[simp] theorem decodeAll_encodeAll (ops : List Instr) : decodeAll (encodeAll ops) = some ops := by
  induction ops with
  | nil => rfl
  | cons i ops ih => simp [decodeAll, ih]

/-- The codes that spell a list of operations are the codes of those operations. -/
theorem eq_encodeAll_of_decodeAll {codes : List Byte} {ops : List Instr} (h : decodeAll codes = some ops) :
    codes = encodeAll ops := by
  induction codes generalizing ops with
  | nil => cases h; rfl
  | cons code rest ih =>
    obtain ⟨i, hi, h⟩ := Option.bind_eq_some_iff.mp h
    obtain ⟨more, hm, rfl⟩ := Option.map_eq_some_iff.mp h
    rw [encodeAll_cons, encodeCode_of_decodeCode hi, ← ih hm]

/-! ### The canonical stream -/

theorem count_absorb_fastTail (n : Nat) : (fastTail n).count .absorb = 0 := by
  unfold fastTail
  split <;> rfl

theorem count_absorb_portableTail (n : Nat) : (portableTail n).count .absorb = 0 :=
  List.count_eq_zero.mpr fun h => absurd (List.mem_of_mem_drop h) (by decide)

theorem count_absorb_tailStream (n : Nat) (fast : Bool) : (tailStream n fast).count .absorb = 0 := by
  cases fast
  · exact count_absorb_portableTail n
  · exact count_absorb_fastTail n

/-- The canonical stream has one ABSORB for each whole block of the input (R183). -/
theorem count_absorb_hashStream (len : Nat) (fast : Bool) : (hashStream len fast).count .absorb = len / 12 := by
  have hb : blockPass.count .absorb = 1 := by decide
  have hf : finalRound.count .absorb = 0 := by decide
  simp [hashStream, List.count_flatten, count_absorb_tailStream, hb, hf]

/-- The check of a stream accepts the canonical streams and no other (R88). -/
theorem streamWf_iff {ops : List Instr} :
    streamWf ops = true ↔ ∃ len fast, len < 2 ^ 32 ∧ ops = hashStream len fast := by
  simp only [streamWf, List.any_eq_true, Bool.and_eq_true, decide_eq_true_eq, beq_iff_eq]
  constructor
  · rintro ⟨t, -, fast, -, hlen, hops⟩
    exact ⟨_, fast, hlen, hops⟩
  · rintro ⟨len, fast, hlen, rfl⟩
    have split : 12 * (len / 12) + len % 12 = len := Nat.div_add_mod len 12
    refine ⟨len % 12, List.mem_range.mpr (Nat.mod_lt len (by decide)), fast, by cases fast <;> decide, ?_⟩
    rw [count_absorb_hashStream, split]
    exact ⟨hlen, rfl⟩

end Sys2Proof

namespace Sys2Proof.Machine

/-- A reserved code handed to the block is refused in every state (R85). -/
theorem issueCode_of_reserved {code : Byte} (h : decodeCode code = none) (s : State) :
    issueCode code s = .refused .reservedOpcode := by
  simp [issueCode, decode_cons_of_none h]

/-! ### The statements -/

/-- Settles O3: a code of no operation is one the decoder reads nothing from. -/
theorem reservedCodesAreRefused : Obligations.ReservedCodesAreRefused := by
  refine ⟨count_reserved_codes, fun code hc => ?_, ?_, fun s i _ => decodeCode_encodeCode i⟩
  · have reserved : decodeCode code = none := decodeCode_eq_none_iff.mpr hc
    exact ⟨decode_cons_of_none reserved, fun s rs hr => (step_of_request hr).trans (issueCode_of_reserved reserved _)⟩
  · exact decodeCode_eq_none_iff.mp rfl

/-- Settles O4, from the check of a stream and the round trip of its codes. -/
theorem streamWellFormedness : Obligations.StreamWellFormedness := by
  refine ⟨fun ops => streamWf_iff, fun s ops hn => ?_, fun s t codes h => ?_⟩
  · have notWf : ¬ streamWf ops = true := fun hw =>
      let ⟨len, fast, hlen, hops⟩ := streamWf_iff.mp hw
      hn len fast hlen hops
    exact runStream_of_not_wf (decodeAll_encodeAll ops) (Bool.eq_false_iff.mpr notWf) s
  · obtain ⟨ops, hd, hw, hi⟩ := runStream_next h
    obtain ⟨len, fast, hlen, rfl⟩ := streamWf_iff.mp hw
    exact ⟨issueAll_next hi, len, fast, hlen, eq_encodeAll_of_decodeAll hd⟩

/-- Settles O1, row by row. -/
theorem codesOfTheTableDecode : Obligations.CodesOfTheTableDecode := by
  intro row hrow rest
  have listed : decodeCode row.1 = some row.2 := by
    revert row
    decide
  exact decode_cons_of_some listed rest

end Sys2Proof.Machine
end

section
/-! Proof of the statement on INIT (spec/40_init.md). First where the sequencer can go: the dispatch issues an operation
other than INIT, no row of R181 leads to INIT, and of the host's requests only a write of `CTRL` does. -/

namespace Sys2Proof.Machine

/-! ### What leads to INIT -/

/-- The loop test and the dispatch issue an operation, and never INIT (R181). -/
theorem loopTarget_eq_some_op {s : State} {u : Upc} (h : loopTarget s = some u) : ∃ i, u = .op i ∧ i ≠ .init := by
  unfold loopTarget at h
  split at h
  case h_5 | h_9 => exact ⟨_, byPath_eq_some_fast h, by split <;> decide⟩
  all_goals cases h; exact ⟨_, rfl, by decide⟩

/-- No row of R181 leads to INIT. -/
theorem successor_ne_init {i : Instr} {s : State} {u : Upc} (h : successor i s = some u) : u ≠ .op .init := by
  cases i
  case init | advance =>
    obtain ⟨j, rfl, hj⟩ := loopTarget_eq_some_op h
    exact fun hu => hj (Upc.op.inj hu)
  case tail9 | tail5 => rw [byPath_eq_some_fast h]; split <;> decide
  all_goals cases h; decide

theorem exec_next_upc_ne_init {i : Instr} {s t : State} (h : exec i s = .next t) : t.upc ≠ .op .init := by
  obtain ⟨m, u, -, hu, rfl⟩ := exec_next h
  exact successor_ne_init hu

/-- A served host request leaves the sequencer at INIT only where it was there before, or by a write of `CTRL` (R33). -/
theorem serve_next_upc_init {r : HostRequest} {s t : State} (h : serve r s = .next t) (hu : t.upc = .op .init) :
    s.upc = .op .init ∨ ∃ v, r = .write .ctrl v := by
  cases r with
  | write reg v =>
    obtain ⟨-, ⟨-, rfl⟩ | ⟨-, rfl⟩ | ⟨rfl, -⟩ | ⟨rfl, -⟩⟩ := hostWrite_next h
    · exact .inl hu
    · exact .inl hu
    · exact .inr ⟨v, rfl⟩
    · exact .inr ⟨v, rfl⟩
  | read reg => obtain ⟨v, rfl⟩ := hostRead_next h; exact .inl hu
  | supply bytes => obtain ⟨-, rfl⟩ := supplyInput_next h; exact .inl hu
  | reset => cases h; cases hu
  | issue code =>
    obtain ⟨i, -, -, -, hx⟩ := issueCode_next h
    exact absurd hu (exec_next_upc_ne_init hx)

/-! ### The statement -/

/-- Settles O8: INIT seeds and then takes a target of the dispatch, and INIT is no target. -/
theorem initSeedsAccumulators : Obligations.InitSeedsAccumulators := by
  refine ⟨rfl, fun s hl hb => ?_, fun s => execInit_of_not_lenHeld, fun i s t => exec_next_upc_ne_init,
    fun s t h hu => ?_⟩
  · have seeds := execInit_of_lenHeld hl
    obtain ⟨u, dispatch⟩ :=
      successor_isSome (s := s.seed ⟨seedK + s.len, seedK + s.len, seedK + s.len⟩ 0#32 s.len) hb .init
    obtain ⟨i, rfl, -⟩ := loopTarget_eq_some_op dispatch
    exact ⟨i, seeds.trans (retire_of_successor dispatch)⟩
  · rcases step_next h with ⟨r, rs, hr, hs⟩ | ⟨-, i, -, hx⟩
    · refine (serve_next_upc_init hs hu).imp_right fun ⟨v, hv⟩ => ?_
      exact ⟨v, rs, hv ▸ hr⟩
    · exact absurd hu (exec_next_upc_ne_init hx)

end Sys2Proof.Machine
end

section
/-! Proofs of the statements on the bulk family (spec/41_bulk_mix.md). First the rules they share: where the dispatch goes by
the remaining length, what leads to an operation of the bulk loop, what a block read and a row of the mix table answer, and
that a mix step can be undone. -/

namespace Sys2Proof.Machine

/-! ### The dispatch by the remaining length -/

theorem loopTarget_of_zero {s : State} (h : s.rem.toNat = 0) : loopTarget s = some (.op .fin1) := by
  simp [loopTarget, h]

/-- With 1 to 11 bytes remaining the dispatch goes to the tail cascade (R181). -/
theorem loopTarget_tail {s : State} {i : Instr} (h : loopTarget s = some (.op i)) (hpos : 1 ≤ s.rem.toNat)
    (hle : s.rem.toNat ≤ 11) : i.family = .tail := by
  unfold loopTarget at h
  split at h
  case h_1 => omega
  case h_13 => grind
  case h_5 | h_9 =>
    cases byPath_eq_some_fast h
    split <;> rfl
  all_goals cases h; rfl

/-- The three classes of the dispatch: another block, the tail, the final round (R181). -/
theorem loopTarget_classes {s : State} {i : Instr} (h : loopTarget s = some (.op i)) :
    (12 ≤ s.rem.toNat → i = .absorb) ∧ (1 ≤ s.rem.toNat → s.rem.toNat ≤ 11 → i.family = .tail) ∧
    (s.rem.toNat = 0 → i = .fin1) := by
  refine ⟨fun hr => ?_, loopTarget_tail h, fun hr => ?_⟩
  · rw [loopTarget_of_ge hr] at h
    cases h
    rfl
  · rw [loopTarget_of_zero hr] at h
    cases h
    rfl

/-- The one bulk operation that the dispatch can issue is ABSORB, for a whole block. -/
theorem loopTarget_bulk {s : State} {i : Instr} (h : loopTarget s = some (.op i)) (hi : i.family = .bulk) :
    i = .absorb ∧ 12 ≤ s.rem.toNat := by
  obtain ⟨block, tail, final⟩ := loopTarget_classes h
  rcases Nat.lt_or_ge s.rem.toNat 12 with hlt | hge
  · exfalso
    rcases Nat.eq_zero_or_pos s.rem.toNat with hz | hpos
    · rw [final hz] at hi
      cases hi
    · rw [tail hpos (by omega)] at hi
      cases hi
  · exact ⟨block hge, hge⟩

/-! ### What leads to an operation of the bulk loop -/

/-- A bulk operation is issued by the dispatch, where it is ABSORB, or after the operation before it in a block pass (R110,
R181). -/
theorem successor_bulk {i j : Instr} {s : State} (h : successor j s = some (.op i)) (hi : i.family = .bulk) :
    (i = .absorb ∧ (j = .init ∨ j = .advance) ∧ 12 ≤ s.rem.toNat) ∨ (j, i) ∈ blockPass.zip blockPass.tail := by
  cases j
  case init | advance =>
    obtain ⟨rfl, hr⟩ := loopTarget_bulk h hi
    exact .inl ⟨rfl, by decide, hr⟩
  case absorb | mix1 | mix2 | mix3 | mix4 | mix5 | mix6 =>
    cases h
    exact .inr (by decide)
  case tail9 | tail5 =>
    cases byPath_eq_some_fast h
    split at hi <;> cases hi
  case result => cases h
  all_goals
    cases h
    cases hi

theorem exec_next_bulk {i j : Instr} {s t : State} (h : exec j s = .next t) (hu : t.upc = .op i)
    (hi : i.family = .bulk) :
    (i = .absorb ∧ (j = .init ∨ j = .advance) ∧ 12 ≤ t.rem.toNat) ∨ (j, i) ∈ blockPass.zip blockPass.tail := by
  obtain ⟨m, u, -, hs, rfl⟩ := exec_next h
  cases hu
  exact successor_bulk hs hi

/-- ABSORB is issued by the dispatch only, for a whole block (R111). -/
theorem exec_next_absorb {j : Instr} {s t : State} (h : exec j s = .next t) (hu : t.upc = .op .absorb) :
    (j = .init ∨ j = .advance) ∧ 12 ≤ t.rem.toNat := by
  have notSecond : ∀ p ∈ blockPass.zip blockPass.tail, p.2 ≠ .absorb := by decide
  rcases exec_next_bulk h hu rfl with ⟨-, dispatched⟩ | hp
  · exact dispatched
  · exact absurd rfl (notSecond _ hp)

/-- Inside a block pass an operation is issued only after the one before it. -/
theorem issuedOnlyAfter_of_blockPass {i p : Instr} (hp : (p, i) ∈ blockPass.zip blockPass.tail) :
    issuedOnlyAfter i [p] := by
  have bulk : ∀ q ∈ blockPass.zip blockPass.tail, q.2.family = .bulk ∧ q.2 ≠ .absorb := by decide
  have unique : ∀ q ∈ blockPass.zip blockPass.tail, ∀ r ∈ blockPass.zip blockPass.tail, q.2 = r.2 → q.1 = r.1 := by
    decide
  obtain ⟨hb, hn⟩ := bulk _ hp
  intro j s t h hu
  rcases exec_next_bulk h hu hb with ⟨ha, -⟩ | hj
  · exact absurd ha hn
  · exact List.mem_singleton.mpr (unique _ hj _ hp rfl)

/-! ### What ABSORB and a row of the mix table answer -/

theorem State.data_of_lt {s : State} {off : Nat} (h : off < s.mem.extent) :
    s.data off = lookupCell off s.mem.cells := by
  simp [State.data, Memory.byteAt, h]

/-- An admitted word read answers the little-endian word of the input (R56). -/
theorem readWord_eq_le32At {s : State} {off : Nat} (hl : off + 4 ≤ s.len.toNat) (he : off + 4 ≤ s.mem.extent) :
    readWord s off = some (le32At s.data off) := by
  rw [readWord_of_le hl he, le32At, State.data_of_lt (off := off) (by omega),
    State.data_of_lt (off := off + 1) (by omega), State.data_of_lt (off := off + 2) (by omega),
    State.data_of_lt (off := off + 3) (by omega)]

theorem readBlock_of_canRead {s : State} (h : s.canRead 12) :
    readBlock s = some (le32At s.data s.pos.toNat, le32At s.data (s.pos.toNat + 4), le32At s.data (s.pos.toNat + 8)) := by
  obtain ⟨hl, he⟩ := h
  rw [readBlock, readWord_eq_le32At (off := s.pos.toNat) (by omega) (by omega),
    readWord_eq_le32At (off := s.pos.toNat + 4) (by omega) (by omega),
    readWord_eq_le32At (off := s.pos.toNat + 8) (by omega) (by omega)]

theorem execAbsorb_of_readBlock {s : State} {w : Word × Word × Word} (hs : s.seeded = true)
    (hw : readBlock s = some w) : execAbsorb s = .next ((s.setAcc (absorbWords w s.acc)).setUpc (.op .mix1)) := by
  rw [execAbsorb, onWorking_of_seeded hs, hw]
  rfl

/-! The rows of the default table have three shapes, by their target. The rotation reads its source before the addition
changes it (R113). -/

theorem mixStep_into_a (r : Nat) (x : Acc) :
    mixStep ⟨.a, .c, .c, r, .c, .b⟩ x = ⟨(x.a - x.c) ^^^ rotl x.c r, x.b, x.c + x.b⟩ := rfl

theorem mixStep_into_b (r : Nat) (x : Acc) :
    mixStep ⟨.b, .a, .a, r, .a, .c⟩ x = ⟨x.a + x.c, (x.b - x.a) ^^^ rotl x.a r, x.c⟩ := rfl

theorem mixStep_into_c (r : Nat) (x : Acc) :
    mixStep ⟨.c, .b, .b, r, .b, .a⟩ x = ⟨x.a, x.b + x.a, (x.c - x.b) ^^^ rotl x.b r⟩ := rfl

/-- A mix operation applies its row and goes to its successor; nothing else changes. -/
theorem mixOp_of_seeded {tb : RoundTables} {i : Instr} {k : Fin 6} {s : State} {x : Acc} {u : Upc}
    (hs : s.seeded = true) (hx : mixStep tb.mix[k] s.acc = x) (hu : successor i (s.setAcc x) = some u) :
    mixOp tb i k s = .next ((s.setAcc x).setUpc u) := by
  subst hx
  exact (onWorking_of_seeded hs _).trans (retire_of_successor hu)

/-! ### A mix step can be undone -/

/-- `S <- S - V; T <- T ^ rotl(S, r); T <- T + S` for a row of the mix table, the inverse that R122 gives. -/
def mixUnstep (r : MixRow) (y : Acc) : Acc :=
  let y₁ := y.set r.addDst (y.get r.addDst - y.get r.addSrc)
  let y₂ := y₁.set r.target (y₁.get r.target ^^^ rotl (y₁.get r.rotSrc) r.amount)
  y₂.set r.target (y₂.get r.target + y₂.get r.subSrc)

/-- The register roles of R122: `S` is subtracted, rotated and added to, and the target, `S` and `V` are distinct. -/
structure MixRow.HasThreeRoles (r : MixRow) : Prop where
  rotSrc : r.rotSrc = r.subSrc
  addDst : r.addDst = r.subSrc
  target_ne_subSrc : r.target ≠ r.subSrc
  target_ne_addSrc : r.target ≠ r.addSrc
  subSrc_ne_addSrc : r.subSrc ≠ r.addSrc

theorem roundTables_mix_hasThreeRoles (k : Fin 6) : roundTables.mix[k].HasThreeRoles where
  rotSrc := by decide +revert
  addDst := by decide +revert
  target_ne_subSrc := by decide +revert
  target_ne_addSrc := by decide +revert
  subSrc_ne_addSrc := by decide +revert

/-- Three distinct accumulators are all there are. -/
theorem Reg.eq_of_distinct {t s v : Reg} (hts : t ≠ s) (htv : t ≠ v) (hsv : s ≠ v) (q : Reg) :
    q = t ∨ q = s ∨ q = v := by
  grind [cases Reg]

section Roles
variable {r : MixRow} (h : r.HasThreeRoles) (x : Acc)
include h

/-- Two triples are equal where they agree on the target, on `S` and on `V`: these are all three accumulators. -/
theorem MixRow.HasThreeRoles.acc_ext {y : Acc} (ht : x.get r.target = y.get r.target)
    (hs : x.get r.subSrc = y.get r.subSrc) (hv : x.get r.addSrc = y.get r.addSrc) : x = y := by
  have agree : ∀ q, x.get q = y.get q := fun q => by
    rcases Reg.eq_of_distinct h.target_ne_subSrc h.target_ne_addSrc h.subSrc_ne_addSrc q with rfl | rfl | rfl
    · exact ht
    · exact hs
    · exact hv
  obtain ⟨a, b, c⟩ := x
  obtain ⟨a', b', c'⟩ := y
  exact (Acc.mk.injEq ..).mpr ⟨agree .a, agree .b, agree .c⟩

theorem mixStep_get_target :
    (mixStep r x).get r.target = (x.get r.target - x.get r.subSrc) ^^^ rotl (x.get r.subSrc) r.amount := by
  obtain ⟨hrot, hdst, hts, -, -⟩ := h
  simp [mixStep, hrot, hdst, Acc.get_set_same, Acc.get_set_other _ hts, Acc.get_set_other _ hts.symm]

theorem mixStep_get_subSrc : (mixStep r x).get r.subSrc = x.get r.subSrc + x.get r.addSrc := by
  obtain ⟨-, hdst, hts, htv, -⟩ := h
  simp [mixStep, hdst, Acc.get_set_same, Acc.get_set_other _ hts.symm, Acc.get_set_other _ htv.symm]

theorem mixStep_get_addSrc : (mixStep r x).get r.addSrc = x.get r.addSrc := by
  obtain ⟨-, hdst, -, htv, hsv⟩ := h
  simp [mixStep, hdst, Acc.get_set_other _ htv.symm, Acc.get_set_other _ hsv.symm]

theorem mixUnstep_get_target :
    (mixUnstep r x).get r.target = (x.get r.target ^^^ rotl (x.get r.subSrc - x.get r.addSrc) r.amount) +
      (x.get r.subSrc - x.get r.addSrc) := by
  obtain ⟨hrot, hdst, hts, -, -⟩ := h
  simp [mixUnstep, hrot, hdst, Acc.get_set_same, Acc.get_set_other _ hts, Acc.get_set_other _ hts.symm]

theorem mixUnstep_get_subSrc : (mixUnstep r x).get r.subSrc = x.get r.subSrc - x.get r.addSrc := by
  obtain ⟨-, hdst, hts, -, -⟩ := h
  simp [mixUnstep, hdst, Acc.get_set_same, Acc.get_set_other _ hts.symm]

theorem mixUnstep_get_addSrc : (mixUnstep r x).get r.addSrc = x.get r.addSrc := by
  obtain ⟨-, hdst, -, htv, hsv⟩ := h
  simp [mixUnstep, hdst, Acc.get_set_other _ htv.symm, Acc.get_set_other _ hsv.symm]

theorem mixUnstep_mixStep : mixUnstep r (mixStep r x) = x := by
  have hs : (mixUnstep r (mixStep r x)).get r.subSrc = x.get r.subSrc := by
    rw [mixUnstep_get_subSrc h, mixStep_get_subSrc h, mixStep_get_addSrc h, BitVec.add_sub_cancel]
  refine h.acc_ext _ ?_ hs ?_
  · rw [mixUnstep_get_target h, ← mixUnstep_get_subSrc h, hs, mixStep_get_target h, BitVec.xor_assoc,
      BitVec.xor_self, BitVec.xor_zero, BitVec.sub_add_cancel]
  · rw [mixUnstep_get_addSrc h, mixStep_get_addSrc h]

theorem mixStep_mixUnstep : mixStep r (mixUnstep r x) = x := by
  refine h.acc_ext _ ?_ ?_ ?_
  · rw [mixStep_get_target h, mixUnstep_get_subSrc h, mixUnstep_get_target h, BitVec.add_sub_cancel,
      BitVec.xor_assoc, BitVec.xor_self, BitVec.xor_zero]
  · rw [mixStep_get_subSrc h, mixUnstep_get_subSrc h, mixUnstep_get_addSrc h, BitVec.sub_add_cancel]
  · rw [mixStep_get_addSrc h, mixUnstep_get_addSrc h]

theorem mixStep_bijective : Function.Bijective (mixStep r) :=
  Function.bijective_iff_has_inverse.mpr ⟨mixUnstep r, mixUnstep_mixStep h, mixStep_mixUnstep h⟩

end Roles

/-- Steps that are bijections, executed one after the other, are a bijection. -/
theorem foldl_bijective {α β : Type} (f : α → β → β) (rows : List α) (h : ∀ r ∈ rows, Function.Bijective (f r)) :
    Function.Bijective fun x => rows.foldl (fun y r => f r y) x := by
  induction rows with
  | nil => exact Function.bijective_id
  | cons r rows ih =>
    exact (ih fun q hq => h q (List.mem_cons_of_mem r hq)).comp (h r List.mem_cons_self)

/-! ### The statements -/

/-- Settles O9: the block read answers the three words of the input, and only the dispatch leads to ABSORB. -/
theorem absorbAddsThreeWords : Obligations.AbsorbAddsThreeWords := by
  refine ⟨rfl, fun s hs _ hc => execAbsorb_of_readBlock hs (readBlock_of_canRead hc), fun s t he h => ?_,
    fun j s t h hu => ?_, fun j s t h hu => (exec_next_absorb h hu).2⟩
  · obtain ⟨-, readable⟩ := canRead_of_exec_next (i := .absorb) (by decide) h
    exact absurd readable (Nat.not_le_of_lt he)
  · simpa using (exec_next_absorb h hu).1

/-- Settles O10: row 1 of the mix table, after ABSORB in a block pass. -/
theorem mix1Result : Obligations.Mix1Result :=
  ⟨rfl, fun _ hs => mixOp_of_seeded hs (mixStep_into_a 4 _) rfl, issuedOnlyAfter_of_blockPass (by decide)⟩

/-- Settles O11: row 2 of the mix table, after MIX1 in a block pass. -/
theorem mix2Result : Obligations.Mix2Result :=
  ⟨rfl, fun _ hs => mixOp_of_seeded hs (mixStep_into_b 6 _) rfl, issuedOnlyAfter_of_blockPass (by decide)⟩

/-- Settles O12: row 3 of the mix table, after MIX2 in a block pass. -/
theorem mix3Result : Obligations.Mix3Result :=
  ⟨rfl, fun _ hs => mixOp_of_seeded hs (mixStep_into_c 8 _) rfl, issuedOnlyAfter_of_blockPass (by decide)⟩

/-- Settles O13: row 4 of the mix table, after MIX3 in a block pass. -/
theorem mix4Result : Obligations.Mix4Result :=
  ⟨rfl, fun _ hs => mixOp_of_seeded hs (mixStep_into_a 16 _) rfl, issuedOnlyAfter_of_blockPass (by decide)⟩

/-- Settles O14: row 5 of the mix table, after MIX4 in a block pass. -/
theorem mix5Result : Obligations.Mix5Result :=
  ⟨rfl, fun _ hs => mixOp_of_seeded hs (mixStep_into_b 19 _) rfl, issuedOnlyAfter_of_blockPass (by decide)⟩

/-- Settles O15: row 6 of the mix table, after MIX5 in a block pass. -/
theorem mix6Result : Obligations.Mix6Result :=
  ⟨rfl, fun _ hs => mixOp_of_seeded hs (mixStep_into_c 4 _) rfl, issuedOnlyAfter_of_blockPass (by decide)⟩

/-- Settles O16: the dispatch after the block has three classes, and at ADVANCE the invariant leaves 12 of `LEN` bytes past
`pos`. -/
theorem advanceMovesPastTheBlock : Obligations.AdvanceMovesPastTheBlock := by
  refine ⟨rfl, fun s hs hb => ?_, fun s hi hu => ?_, issuedOnlyAfter_of_blockPass (by decide)⟩
  · obtain ⟨u, dispatch⟩ := successor_isSome (s := s.setCursor (s.pos + blockSize) (s.rem - blockSize)) hb .advance
    obtain ⟨i, rfl, -⟩ := loopTarget_eq_some_op dispatch
    exact ⟨i, (execAdvance_of_seeded hs).trans (retire_of_successor dispatch), loopTarget_classes dispatch⟩
  · have run := hi.running .advance hu (by decide)
    have split := run.split
    have block : 12 ≤ s.rem.toNat := run.phase
    exact ⟨by bv_omega, by bv_omega⟩

/-- Settles O43: every row of the table has the three roles, which make its step a bijection; the round composes six. -/
theorem mixStepsAreBijections : Obligations.MixStepsAreBijections := by
  have bijective : ∀ k : Fin 6, Function.Bijective (mixStep roundTables.mix[k]) := fun k =>
    mixStep_bijective (roundTables_mix_hasThreeRoles k)
  refine ⟨fun k => mixUnstep_mixStep (roundTables_mix_hasThreeRoles k), bijective,
    foldl_bijective mixStep _ fun r hr => ?_, by decide, fun s t hl h => ?_⟩
  · obtain ⟨k, hk, rfl⟩ := Vector.getElem_of_mem (Vector.mem_toList_iff.mp hr)
    exact bijective ⟨k, hk⟩
  · have wraps : seedK + 0x618CA9B0#32 = 0#32 := by decide
    obtain ⟨-, u, rfl, -⟩ := execInit_next h
    simp [hl, wraps]

end Sys2Proof.Machine
end

section
/-! Proofs of the statements on the tail family (spec/42_tail.md). First the rules they share: what leads to a tail
operation, what a byte and a word operation answer, and that a word is the sum of its placed bytes. -/

namespace Sys2Proof.Machine

/-! ### What leads to a tail operation -/

/-- The operation the dispatch of R181 issues with `rem` bytes remaining: ABSORB for a whole block, else the first operation
of the tail cascade of R148 and R149, and FIN1 where that is empty. -/
def dispatchTarget (rem : Nat) (fast : Bool) : Instr :=
  if 12 ≤ rem then .absorb else (tailStream rem fast).head?.getD .fin1

theorem loopTarget_eq_dispatchTarget {s : State} {u : Upc} (h : loopTarget s = some u) :
    u = .op (dispatchTarget s.rem.toNat s.fast) := by
  rcases Nat.lt_or_ge s.rem.toNat 12 with hlt | hge
  · unfold loopTarget at h
    split at h
    case h_5 hr | h_9 hr =>
      rw [byPath_eq_some_fast h, hr]
      cases s.fast <;> rfl
    case h_13 => grind
    all_goals
      rename_i hr
      cases h
      rw [hr]
      cases s.fast <;> rfl
  · rw [loopTarget_of_ge hge] at h
    cases h
    simp [dispatchTarget, hge]

/-- The steps of R181 from one tail operation to the next, on each read path. -/
def tailLinks (fast : Bool) : List (Instr × Instr) :=
  [(.tail11, .tail10), (.tail10, .tail9), (.tail9, if fast then .tailwb else .tail8), (.tail8, .tail7),
    (.tail7, .tail6), (.tail6, .tail5), (.tail5, if fast then .tailwa else .tail4), (.tail4, .tail3),
    (.tail3, .tail2), (.tail2, .tail1), (.tailwb, .tailwa)]

/-- A tail operation is issued by the dispatch or by a link of the cascade (R181). -/
theorem successor_tail {i j : Instr} {s : State} (h : successor j s = some (.op i)) (hi : i.family = .tail) :
    (j = .init ∨ j = .advance) ∨ (j, i) ∈ tailLinks s.fast := by
  cases j
  case init | advance => exact .inl (by decide)
  case tail9 | tail5 =>
    cases byPath_eq_some_fast h
    exact .inr (by cases s.fast <;> decide)
  case tail11 | tail10 | tail8 | tail7 | tail6 | tail4 | tail3 | tail2 | tailwb =>
    cases h
    exact .inr (by cases s.fast <;> decide)
  case result => cases h
  all_goals
    cases h
    cases hi

theorem exec_next_tail {i j : Instr} {s t : State} (h : exec j s = .next t) (hu : t.upc = .op i)
    (hi : i.family = .tail) : (j = .init ∨ j = .advance) ∨ (j, i) ∈ tailLinks t.fast := by
  obtain ⟨m, u, -, hs, rfl⟩ := exec_next h
  cases hu
  exact successor_tail hs hi

/-- A tail operation is issued only by the dispatch and after the operations that a link leads from. -/
theorem issuedOnlyAfter_of_tailLinks {i : Instr} {above : List Instr} (hi : i.family = .tail)
    (links : ∀ fast, ∀ p ∈ tailLinks fast, p.2 = i → p.1 ∈ above) : issuedOnlyAfter i (.init :: .advance :: above) := by
  intro j s t h hu
  rcases exec_next_tail h hu hi with (rfl | rfl) | hp
  · exact List.mem_cons_self
  · exact List.mem_cons_of_mem _ List.mem_cons_self
  · exact List.mem_cons_of_mem _ (List.mem_cons_of_mem _ (links _ _ hp rfl))

/-- The dispatch issues a tail operation as its target says, which for a whole block is another one. -/
theorem issuedFirstWhen_of_dispatchTarget {i : Instr} {n : Nat} {paths : List Bool} (hi : i.family = .tail) (hn : n < 12)
    (target : ∀ rem < 12, ∀ fast, dispatchTarget rem fast = i ↔ rem = n ∧ fast ∈ paths) : issuedFirstWhen i n paths := by
  intro j s t hj h
  rw [loopTarget_eq_dispatchTarget (exec_next_loopTarget hj h), Upc.op.injEq]
  rcases Nat.lt_or_ge t.rem.toNat 12 with hlt | hge
  · exact target _ hlt _
  · have block : dispatchTarget t.rem.toNat t.fast = .absorb := if_pos hge
    rw [block]
    refine ⟨fun ha => ?_, fun ⟨hr, _⟩ => by omega⟩
    subst ha
    cases hi

/-- A tail operation that the dispatch issues on one path only, and that no link of the other path leads to, is issued on
that path only. -/
theorem issuedOnlyOn_of_tailLinks {i : Instr} {n : Nat} {fast : Bool} (hi : i.family = .tail)
    (first : issuedFirstWhen i n [fast]) (links : ∀ p ∈ tailLinks !fast, p.2 ≠ i) : issuedOnlyOn fast i := by
  intro j s t h hu
  rcases exec_next_tail h hu hi with hj | hp
  · exact List.mem_singleton.mp ((first j s t hj h).mp hu).2
  · by_contra hf
    rw [Bool.eq_not.mpr hf] at hp
    exact links _ hp rfl

/-! ### What a byte and a word operation answer -/

theorem State.canRead.mono {s : State} {m n : Nat} (h : s.canRead n) (hm : m ≤ n) : s.canRead m := by
  obtain ⟨hl, he⟩ := h
  exact ⟨by omega, by omega⟩

/-- A byte operation adds the byte at its index, shifted, and goes to its successor; nothing else changes. -/
theorem addTailByte_of_successor {i : Instr} {r : Reg} {index shift : Nat} {s : State} {x : Acc} {u : Upc}
    (hs : s.seeded = true) (hr : s.canRead (index + 1))
    (hx : s.acc.add r (zext32 (s.data (s.pos.toNat + index)) <<< shift) = x) (hu : successor i s = some u) :
    addTailByte i r index shift s = .next { s with acc := x, upc := u } := by
  obtain ⟨hl, he⟩ := hr
  subst hx
  rw [addTailByte, onWorking_of_seeded hs, readByte_of_le (off := s.pos.toNat + index) hl he,
    ← State.data_of_lt (off := s.pos.toNat + index) he]
  exact retire_of_successor ((successor_congr rfl (fastPath_congr rfl rfl) i).trans hu)

/-- The byte and the successor do not depend on what the operations before it in the cascade write: accumulators and
`upc`. -/
theorem addTailByte_in_cascade {i : Instr} {r : Reg} {index shift : Nat} {s : State} {u : Upc} (hs : s.seeded = true)
    (hr : s.canRead (index + 1)) (hu : successor i s = some u) (x : Acc) (v : Upc) :
    addTailByte i r index shift { s with acc := x, upc := v } =
      .next { s with acc := x.add r (placeByte (s.data (s.pos.toNat + index)) shift), upc := u } :=
  addTailByte_of_successor (s := { s with acc := x, upc := v }) hs hr rfl
    ((successor_congr rfl (fastPath_congr rfl rfl) i).trans hu)

/-- A word operation adds the little-endian word at its index and goes to its successor; nothing else changes. -/
theorem addTailWord_of_successor {i : Instr} {r : Reg} {index : Nat} {s : State} {x : Acc} {u : Upc}
    (hs : s.seeded = true) (hr : s.canRead (index + 4))
    (hx : s.acc.add r (le32At s.data (s.pos.toNat + index)) = x) (hu : successor i s = some u) :
    addTailWord i r index s = .next { s with acc := x, upc := u } := by
  subst hx
  rw [addTailWord, onWorking_of_seeded hs, readWord_eq_le32At (off := s.pos.toNat + index) hr.1 hr.2]
  exact retire_of_successor ((successor_congr rfl (fastPath_congr rfl rfl) i).trans hu)

/-- TAIL9 and TAIL5 go where the path leads, once the host's duty on `BASE` is done (R181, R243). -/
theorem byPath_of_baseReady {s : State} (h : s.baseReady) (x y : Instr) :
    byPath s x y = some (.op (if s.fast then x else y)) := byPath_of_fastPath (fastPath_eq h) x y

/-- With its last byte beyond the extent an operation that reads has no step (R62). -/
theorem exec_ne_next_beyond_extent {i : Instr} {s t : State} (hr : 0 < (readSpan i).2)
    (he : s.mem.extent < s.pos.toNat + (readSpan i).2) : exec i s ≠ .next t :=
  fun h => absurd (canRead_of_exec_next hr h).2 (Nat.not_le_of_lt he)

/-- TAIL5 leads to TAILWA on the fast path only. -/
theorem fastPath_of_tail5_tailwa {s t : State} (h : exec .tail5 s = .next t) (hu : t.upc = .op .tailwa) :
    fastPath s = some true := by
  obtain ⟨m, u, same, next, rfl⟩ := exec_next h
  rw [fastPath_congr same.base.symm same.baseHeld.symm]
  rcases byPath_eq_some next with ⟨fast, -⟩ | ⟨-, rfl⟩
  · exact fast
  · cases hu

/-! ### A word is the sum of its placed bytes -/

/-- A byte placed above all bits of a word is added to it without a carry. -/
theorem or_placeByte {x : Word} {shift : Nat} (h : x.toNat < 2 ^ shift) (v : Byte) :
    x ||| placeByte v shift = x + placeByte v shift := by
  refine (BitVec.add_eq_or_of_and_eq_zero _ _ ?_).symm
  ext k hk
  rcases Nat.lt_or_ge k shift with hlt | hge
  · simp [placeByte, hlt]
  · have clear : x.getLsbD k = false := Nat.testBit_lt_two_pow (h.trans_le (Nat.pow_le_pow_right (by decide) hge))
    simp [BitVec.getLsbD_eq_getElem hk ▸ clear]

/-- A placed byte leaves the bits above it clear. -/
theorem placeByte_lt (v : Byte) (shift : Nat) : (placeByte v shift).toNat < 2 ^ (shift + 8) :=
  calc (placeByte v shift).toNat
    _ ≤ v.toNat * 2 ^ shift := by
      simpa [placeByte, zext32, Nat.shiftLeft_eq] using Nat.mod_le _ _
    _ < 2 ^ 8 * 2 ^ shift := Nat.mul_lt_mul_of_pos_right v.isLt (Nat.two_pow_pos shift)
    _ = 2 ^ (shift + 8) := by rw [Nat.add_comm, Nat.pow_add]

theorem or_placeByte_lt {x : Word} {shift : Nat} (h : x.toNat < 2 ^ shift) (v : Byte) :
    (x ||| placeByte v shift).toNat < 2 ^ (shift + 8) := by
  rw [BitVec.toNat_or]
  exact Nat.or_lt_two_pow (h.trans_le (Nat.pow_le_pow_right (by decide) (Nat.le_add_right _ _))) (placeByte_lt v shift)

/-- Each byte of a word is placed above the ones before it, so the composition of R56 is a sum. -/
theorem composeWord_eq_sum (b0 b1 b2 b3 : Byte) :
    composeWord b0 b1 b2 b3 = placeByte b0 0 + placeByte b1 8 + placeByte b2 16 + placeByte b3 24 := by
  have below1 := placeByte_lt b0 0
  have below2 := or_placeByte_lt below1 b1
  have below3 := or_placeByte_lt below2 b2
  rw [composeWord, or_placeByte below3, or_placeByte below2, or_placeByte below1]

theorem Acc.add_add (x : Acc) (r : Reg) (v w : Word) : (x.add r v).add r w = x.add r (v + w) := by
  cases r <;> simp [BitVec.add_assoc]

/-- The four bytes added one after the other, highest first, add the word (R145). -/
theorem Acc.add_placed_bytes (x : Acc) (r : Reg) (b0 b1 b2 b3 : Byte) :
    (((x.add r (placeByte b3 24)).add r (placeByte b2 16)).add r (placeByte b1 8)).add r (placeByte b0 0) =
      x.add r (composeWord b0 b1 b2 b3) := by
  have reverse (w0 w1 w2 w3 : Word) : w3 + w2 + w1 + w0 = w0 + w1 + w2 + w3 := by ac_rfl
  rw [Acc.add_add, Acc.add_add, Acc.add_add, composeWord_eq_sum, ← reverse]
  simp only [BitVec.add_assoc]

/-- Four byte operations at falling indices and shifts have the effect of the word operation at the lowest index (R145). -/
theorem addTailByte_four_times {i₃ i₂ i₁ i₀ : Instr} {r : Reg} {index : Nat} {s : State} {u₃ u₂ u₁ u₀ : Upc}
    (hs : s.seeded = true) (hr : s.canRead (index + 4)) (h₃ : successor i₃ s = some u₃) (h₂ : successor i₂ s = some u₂)
    (h₁ : successor i₁ s = some u₁) (h₀ : successor i₀ s = some u₀) :
    ∃ s₁ s₂ s₃, addTailByte i₃ r (index + 3) 24 s = .next s₁ ∧ addTailByte i₂ r (index + 2) 16 s₁ = .next s₂ ∧
      addTailByte i₁ r (index + 1) 8 s₂ = .next s₃ ∧ addTailByte i₀ r index 0 s₃ =
        .next { s with acc := s.acc.add r (le32At s.data (s.pos.toNat + index)), upc := u₀ } := by
  rw [le32At, ← Acc.add_placed_bytes]
  exact ⟨_, _, _, addTailByte_in_cascade hs hr h₃ s.acc s.upc,
    addTailByte_in_cascade hs (hr.mono (by omega)) h₂ _ _, addTailByte_in_cascade hs (hr.mono (by omega)) h₁ _ _,
    addTailByte_in_cascade hs (hr.mono (by omega)) h₀ _ _⟩

/-! ### The statements -/

/-- Settles O17: each byte operation adds its byte of the table of R130 to `c`, and the links lead down the cascade. -/
theorem tailBytesGoIntoC : Obligations.TailBytesGoIntoC :=
  ⟨⟨rfl, fun _ hs hr => addTailByte_of_successor hs hr rfl rfl,
      issuedOnlyAfter_of_tailLinks (above := []) rfl (by decide),
      issuedFirstWhen_of_dispatchTarget rfl (by decide) (by decide)⟩,
    ⟨rfl, fun _ hs hr => addTailByte_of_successor hs hr rfl rfl,
      issuedOnlyAfter_of_tailLinks rfl (by decide), issuedFirstWhen_of_dispatchTarget rfl (by decide) (by decide)⟩,
    ⟨rfl, fun _ hs hr hb => addTailByte_of_successor hs hr rfl (byPath_of_baseReady hb _ _),
      issuedOnlyAfter_of_tailLinks rfl (by decide), issuedFirstWhen_of_dispatchTarget rfl (by decide) (by decide)⟩⟩

/-- Settles O18: each byte operation adds its byte of the table of R130 to `b`, and TAIL8 stands on the portable path of the
dispatch and of the cascade. -/
theorem tailBytesGoIntoB : Obligations.TailBytesGoIntoB :=
  have first8 : issuedFirstWhen .tail8 8 [false] := issuedFirstWhen_of_dispatchTarget rfl (by decide) (by decide)
  ⟨⟨rfl, fun _ hs hr => addTailByte_of_successor hs hr rfl rfl,
      issuedOnlyAfter_of_tailLinks rfl (by decide), first8,
      issuedOnlyOn_of_tailLinks rfl first8 (by decide)⟩,
    ⟨rfl, fun _ hs hr => addTailByte_of_successor hs hr rfl rfl,
      issuedOnlyAfter_of_tailLinks rfl (by decide), issuedFirstWhen_of_dispatchTarget rfl (by decide) (by decide)⟩,
    ⟨rfl, fun _ hs hr => addTailByte_of_successor hs hr rfl rfl,
      issuedOnlyAfter_of_tailLinks rfl (by decide), issuedFirstWhen_of_dispatchTarget rfl (by decide) (by decide)⟩,
    ⟨rfl, fun _ hs hr hb => addTailByte_of_successor hs hr (by simp) (byPath_of_baseReady hb _ _),
      issuedOnlyAfter_of_tailLinks rfl (by decide), issuedFirstWhen_of_dispatchTarget rfl (by decide) (by decide)⟩⟩

/-- Settles O19: each byte operation adds its byte of the table of R130 to `a`, and TAIL4 stands on the portable path of the
dispatch and of the cascade. -/
theorem tailBytesGoIntoA : Obligations.TailBytesGoIntoA :=
  have first4 : issuedFirstWhen .tail4 4 [false] := issuedFirstWhen_of_dispatchTarget rfl (by decide) (by decide)
  ⟨⟨rfl, fun _ hs hr => addTailByte_of_successor hs hr rfl rfl,
      issuedOnlyAfter_of_tailLinks rfl (by decide), first4,
      issuedOnlyOn_of_tailLinks rfl first4 (by decide)⟩,
    ⟨rfl, fun _ hs hr => addTailByte_of_successor hs hr rfl rfl,
      issuedOnlyAfter_of_tailLinks rfl (by decide), issuedFirstWhen_of_dispatchTarget rfl (by decide) (by decide)⟩,
    ⟨rfl, fun _ hs hr => addTailByte_of_successor hs hr rfl rfl,
      issuedOnlyAfter_of_tailLinks rfl (by decide), issuedFirstWhen_of_dispatchTarget rfl (by decide) (by decide)⟩,
    ⟨rfl, fun _ hs hr => addTailByte_of_successor hs hr (by simp) rfl,
      issuedOnlyAfter_of_tailLinks rfl (by decide), issuedFirstWhen_of_dispatchTarget rfl (by decide) (by decide)⟩⟩

/-- Settles O20: the words are those of the input, their alignment is that of O47, and `phase` holds TAILWB, TAILWA and the
operations before them to the remaining lengths. -/
theorem tailWordsGoIntoBAndA : Obligations.TailWordsGoIntoBAndA := by
  have firstB : issuedFirstWhen .tailwb 8 [true] := issuedFirstWhen_of_dispatchTarget rfl (by decide) (by decide)
  have firstA : issuedFirstWhen .tailwa 4 [true] := issuedFirstWhen_of_dispatchTarget rfl (by decide) (by decide)
  obtain ⟨aligned, onFastPath⟩ := alignedWordReads
  refine ⟨⟨rfl, fun s hs hr => addTailWord_of_successor hs hr rfl rfl,
      fun s t => exec_ne_next_beyond_extent (i := .tailwb) (by decide), issuedOnlyAfter_of_tailLinks rfl (by decide),
      firstB, issuedOnlyOn_of_tailLinks rfl firstB (by decide), fun s hi hu => ?_, fun s t hi hu h _ => ?_⟩,
    ⟨rfl, fun s hs hr => addTailWord_of_successor hs hr rfl rfl,
      fun s t => exec_ne_next_beyond_extent (i := .tailwa) (by decide), issuedOnlyAfter_of_tailLinks rfl (by decide),
      firstA, fun s hi hu => ?_, fun s t hi hu h hw => ?_, fun s t hi hu h => ?_⟩⟩
  · have fast := onFastPath s hi (.inl hu)
    obtain ⟨-, aligned, -⟩ := aligned s hi fast
    exact ⟨(hi.running _ hu (by decide)).phase.1, fast, aligned hu⟩
  · rw [(exec_next_cursor (by decide) (by decide) h).2]
    exact (hi.running _ hu (by decide)).phase
  · have fast := onFastPath s hi (.inr hu)
    obtain ⟨-, -, aligned⟩ := aligned s hi fast
    exact ⟨(hi.running _ hu (by decide)).phase.1, fast, aligned hu⟩
  · rw [(exec_next_cursor (by decide) (by decide) h).2]
    obtain ⟨low, -, high⟩ := (hi.running _ hu (by decide)).phase
    exact ⟨low, high (fastPath_of_tail5_tailwa h hw)⟩
  · rw [(exec_next_cursor (by decide) (by decide) h).2]
    obtain ⟨low, high, -⟩ := (hi.running _ hu (by decide)).phase
    obtain ⟨m, u, -, next, rfl⟩ := exec_next h
    exact ⟨(Option.some.inj next).symm, low, high⟩

/-- Settles O21: the four byte operations add the placed bytes that the word is the sum of. -/
theorem wordTailEqualsByteTail : Obligations.WordTailEqualsByteTail := by
  refine ⟨fun s hs hr hb => ?_, fun s hs hr => ?_⟩
  · obtain ⟨s₁, s₂, s₃, exec8, exec7, exec6, exec5⟩ := addTailByte_four_times (i₃ := .tail8) (i₂ := .tail7)
      (i₁ := .tail6) (i₀ := .tail5) (r := .b) (index := 4) hs hr rfl rfl rfl (byPath_of_baseReady hb _ _)
    exact ⟨s₁, s₂, s₃, _, _, exec8, exec7, exec6, exec5, addTailWord_of_successor (index := 4) hs hr rfl rfl, rfl⟩
  · obtain ⟨s₁, s₂, s₃, exec4, exec3, exec2, exec1⟩ := addTailByte_four_times (i₃ := .tail4) (i₂ := .tail3)
      (i₁ := .tail2) (i₀ := .tail1) (r := .a) (index := 0) hs hr rfl rfl rfl rfl
    exact ⟨s₁, s₂, s₃, _, exec4, exec3, exec2, exec1, addTailWord_of_successor (index := 0) hs hr rfl rfl⟩

end Sys2Proof.Machine
end

section
/-! Proofs of the statements on the final family and RESULT (spec/43_final_result.md). First the rules they share: what
leads to an operation of the final stage, what a row of the final table answers and leaves unchanged, and that a final step
can be undone. -/

namespace Sys2Proof.Machine

/-! ### What leads to an operation of the final stage -/

/-- The operations with which every run ends (R183). -/
def finalStage : List Instr := finalRound ++ [.result]

/-- The steps of R181 from one operation of the final stage to the next. -/
def finalLinks : List (Instr × Instr) := finalStage.zip finalStage.tail

/-- The dispatch goes to FIN1 exactly with no byte remaining (R162, R181). -/
theorem loopTarget_fin1_iff {s : State} {i : Instr} (h : loopTarget s = some (.op i)) :
    i = .fin1 ↔ s.rem.toNat = 0 := by
  obtain ⟨block, tail, final⟩ := loopTarget_classes h
  refine ⟨?_, final⟩
  rintro rfl
  by_contra hr
  rcases Nat.lt_or_ge s.rem.toNat 12 with hlt | hge
  · cases tail (by omega) (by omega)
  · cases block hge

/-- The one operation of the final stage that the dispatch can issue is FIN1. -/
theorem loopTarget_final {s : State} {i : Instr} (h : loopTarget s = some (.op i)) (hi : i ∈ finalStage) :
    i = .fin1 := by
  have notTail : ∀ j ∈ finalStage, j.family ≠ .tail := by decide
  obtain ⟨block, tail, final⟩ := loopTarget_classes h
  by_cases hr : s.rem.toNat = 0
  · exact final hr
  exfalso
  rcases Nat.lt_or_ge s.rem.toNat 12 with hlt | hge
  · exact notTail i hi (tail (by omega) (by omega))
  · rw [block hge] at hi
    exact absurd hi (by decide)

/-- An operation of the final stage is FIN1, issued by the dispatch or at the end of the tail cascade, or is issued after the
operation before it (R181). -/
theorem successor_final {i j : Instr} {s : State} (h : successor j s = some (.op i)) (hi : i ∈ finalStage) :
    (i = .fin1 ∧ j ∈ [Instr.init, .advance, .tail1, .tailwa]) ∨ (j, i) ∈ finalLinks := by
  cases j
  case init | advance => exact .inl ⟨loopTarget_final h hi, by decide⟩
  case tail1 | tailwa =>
    cases h
    exact .inl ⟨rfl, by decide⟩
  case fin1 | fin2 | fin3 | fin4 | fin5 | fin6 =>
    cases h
    exact .inr (by decide)
  case tail9 | tail5 =>
    cases byPath_eq_some_fast h
    split at hi <;> exact absurd hi (by decide)
  case result => cases h
  all_goals
    cases h
    exact absurd hi (by decide)

theorem exec_next_final {i j : Instr} {s t : State} (h : exec j s = .next t) (hu : t.upc = .op i)
    (hi : i ∈ finalStage) : (i = .fin1 ∧ j ∈ [Instr.init, .advance, .tail1, .tailwa]) ∨ (j, i) ∈ finalLinks := by
  obtain ⟨m, u, -, hs, rfl⟩ := exec_next h
  cases hu
  exact successor_final hs hi

theorem issuedOnlyAfter_fin1 : issuedOnlyAfter .fin1 [.init, .advance, .tail1, .tailwa] := by
  have notSecond : ∀ p ∈ finalLinks, p.2 ≠ .fin1 := by decide
  intro j s t h hu
  rcases exec_next_final h hu (by decide) with ⟨-, before⟩ | hp
  · exact before
  · exact absurd rfl (notSecond _ hp)

/-- After FIN1 an operation of the final stage is issued only after the one before it. -/
theorem issuedOnlyAfter_of_finalLinks {i p : Instr} (hp : (p, i) ∈ finalLinks) : issuedOnlyAfter i [p] := by
  have second : ∀ q ∈ finalLinks, q.2 ∈ finalStage ∧ q.2 ≠ .fin1 := by decide
  have unique : ∀ q ∈ finalLinks, ∀ r ∈ finalLinks, q.2 = r.2 → q.1 = r.1 := by decide
  obtain ⟨hi, hn⟩ := second _ hp
  intro j s t h hu
  rcases exec_next_final h hu hi with ⟨h1, -⟩ | hj
  · exact absurd h1 hn
  · exact List.mem_singleton.mpr (unique _ hj _ hp rfl)

/-- The dispatch issues FIN1 exactly with no byte remaining, on both read paths (R162). -/
theorem issuedFirstWhen_fin1 : issuedFirstWhen .fin1 0 [false, true] := by
  have bothPaths : ∀ fast, fast ∈ [false, true] := by decide
  intro j s t hj h
  have dispatch := exec_next_loopTarget hj h
  obtain ⟨i, hu, -⟩ := loopTarget_eq_some_op dispatch
  rw [hu] at dispatch
  rw [hu, Upc.op.injEq, loopTarget_fin1_iff dispatch, and_iff_left (bothPaths t.fast)]

/-! ### What the operations of the final stage answer -/

/-! The rows of the default table have three shapes, by their target. -/

theorem finalStep_into_a (r : Nat) (x : Acc) :
    finalStep ⟨.a, .c, .c, r⟩ x = ⟨(x.a ^^^ x.c) - rotl x.c r, x.b, x.c⟩ := rfl

theorem finalStep_into_b (r : Nat) (x : Acc) :
    finalStep ⟨.b, .a, .a, r⟩ x = ⟨x.a, (x.b ^^^ x.a) - rotl x.a r, x.c⟩ := rfl

theorem finalStep_into_c (r : Nat) (x : Acc) :
    finalStep ⟨.c, .b, .b, r⟩ x = ⟨x.a, x.b, (x.c ^^^ x.b) - rotl x.b r⟩ := rfl

/-- A final operation with one row applies that row and goes to its successor; nothing else changes. -/
theorem finalOp_of_seeded {tb : RoundTables} {i : Instr} {k : Fin 6} {r : FinalRow} {s : State} {x : Acc} {u : Upc}
    (hs : s.seeded = true) (hr : finalRows tb k = [r]) (hx : finalStep r s.acc = x)
    (hu : successor i (s.setAcc x) = some u) : finalOp tb i k s = .next ((s.setAcc x).setUpc u) := by
  subst hx
  rw [finalOp, onWorking_of_seeded hs, hr]
  exact retire_of_successor hu

theorem execResult_of_seeded {s : State} (h : s.seeded = true) :
    execResult s = .next ((s.setDigest (some s.acc.c)).setUpc .done) :=
  (onWorking_of_seeded h _).trans (retire_of_successor rfl)

/-- A final step writes its target only (R160). -/
theorem finalStep_get_other {r : FinalRow} {q : Reg} (h : q ≠ r.target) (x : Acc) :
    (finalStep r x).get q = x.get q := by
  simp [finalStep, Acc.get_set_other _ h]

/-- Rows of a final table write their targets only. -/
theorem finalSteps_get_other {rows : List FinalRow} {q : Reg} (h : ∀ r ∈ rows, q ≠ r.target) (x : Acc) :
    (finalSteps rows x).get q = x.get q := by
  induction rows generalizing x with
  | nil => rfl
  | cons r rows ih =>
    rw [finalSteps_cons, ih (fun p hp => h p (List.mem_cons_of_mem r hp)), finalStep_get_other (h r List.mem_cons_self)]

/-- A final operation keeps an accumulator that none of its rows targets. -/
theorem finalOp_next_get_other {tb : RoundTables} {i : Instr} {k : Fin 6} {s t : State} {q : Reg}
    (hq : ∀ r ∈ finalRows tb k, q ≠ r.target) (h : finalOp tb i k s = .next t) : t.acc.get q = s.acc.get q := by
  obtain ⟨-, u, rfl, -⟩ := finalOp_next h
  exact finalSteps_get_other hq s.acc

/-- The operations after FIN4 do not write `c` (R165, R169). -/
theorem exec_next_c_after_fin4 {i : Instr} {s t : State} (hi : i ∈ [Instr.fin5, .fin6, .result])
    (h : exec i s = .next t) : t.acc.c = s.acc.c := by
  simp only [List.mem_cons, List.not_mem_nil, or_false] at hi
  rcases hi with rfl | rfl | rfl
  · exact finalOp_next_get_other (q := .c) (k := 4) (by decide) h
  · exact finalOp_next_get_other (q := .c) (k := 5) (by decide) h
  · obtain ⟨-, rfl⟩ := execResult_next h
    rfl

/-! ### A short input before the final round -/

/-- At most 4 remaining bytes all go into `a` (R130). -/
theorem tailFunction_of_le_four {n : Nat} (hn : n ≤ 4) (data : Nat → Byte) (p : Nat) (x : Acc) :
    (tailFunction data p n x).b = x.b ∧ (tailFunction data p n x).c = x.c := by
  simp (disch := omega) only [tailFunction, if_neg, and_self]

/-- An input shorter than a block has no block pass (R123). -/
theorem beforeFinal_of_lt_block {len : Word} (h : len.toNat < 12) (t : RoundTables) (data : Nat → Byte) :
    beforeFinal t data len = tailFunction data 0 len.toNat ⟨seedK + len, seedK + len, seedK + len⟩ := by
  rw [beforeFinal, Nat.div_eq_of_lt h, Nat.mod_eq_of_lt h]
  rfl

/-! ### A final step can be undone -/

theorem Acc.set_set (x : Acc) (r : Reg) (v w : Word) : (x.set r v).set r w = x.set r w := by cases r <;> rfl

theorem Acc.set_get (x : Acc) (r : Reg) : x.set r (x.get r) = x := by cases r <;> rfl

/-- `T <- T + rotl(X, r); T <- T ^ X` for a row of the final table, the inverse that R171 gives. -/
def finalUnstep (r : FinalRow) (y : Acc) : Acc :=
  let y₁ := y.set r.target (y.get r.target + rotl (y.get r.rotSrc) r.amount)
  y₁.set r.target (y₁.get r.target ^^^ y₁.get r.xorSrc)

/-- The register roles of R171: `X` is XORed in and rotated, and is not the target. -/
structure FinalRow.HasTwoRoles (r : FinalRow) : Prop where
  rotSrc : r.rotSrc = r.xorSrc
  xorSrc_ne_target : r.xorSrc ≠ r.target

theorem roundTables_final_hasTwoRoles : ∀ r ∈ roundTables.final, r.HasTwoRoles := by
  have rotSrc : ∀ r ∈ roundTables.final, r.rotSrc = r.xorSrc := by decide
  have xorSrc_ne_target : ∀ r ∈ roundTables.final, r.xorSrc ≠ r.target := by decide
  exact fun r hr => ⟨rotSrc r hr, xorSrc_ne_target r hr⟩

section Roles
variable {r : FinalRow} (h : r.HasTwoRoles) (x : Acc)
include h

/-- A final step is one write of the target, from the target and `X` before the step. -/
theorem finalStep_eq_set :
    finalStep r x = x.set r.target ((x.get r.target ^^^ x.get r.xorSrc) - rotl (x.get r.xorSrc) r.amount) := by
  obtain ⟨hrot, hne⟩ := h
  simp only [finalStep, hrot, Acc.get_set_same, Acc.get_set_other _ hne, Acc.set_set]

theorem finalUnstep_eq_set :
    finalUnstep r x = x.set r.target ((x.get r.target + rotl (x.get r.xorSrc) r.amount) ^^^ x.get r.xorSrc) := by
  obtain ⟨hrot, hne⟩ := h
  simp only [finalUnstep, hrot, Acc.get_set_same, Acc.get_set_other _ hne, Acc.set_set]

theorem finalUnstep_finalStep : finalUnstep r (finalStep r x) = x := by
  rw [finalUnstep_eq_set h, finalStep_eq_set h, Acc.get_set_same, Acc.get_set_other _ h.xorSrc_ne_target, Acc.set_set,
    BitVec.sub_add_cancel, BitVec.xor_assoc, BitVec.xor_self, BitVec.xor_zero, Acc.set_get]

theorem finalStep_finalUnstep : finalStep r (finalUnstep r x) = x := by
  rw [finalStep_eq_set h, finalUnstep_eq_set h, Acc.get_set_same, Acc.get_set_other _ h.xorSrc_ne_target, Acc.set_set,
    BitVec.xor_assoc, BitVec.xor_self, BitVec.xor_zero, BitVec.add_sub_cancel, Acc.set_get]

theorem finalStep_bijective : Function.Bijective (finalStep r) :=
  Function.bijective_iff_has_inverse.mpr ⟨finalUnstep r, finalUnstep_finalStep h, finalStep_finalUnstep h⟩

end Roles

/-! ### The statements -/

/-- Settles O23: row 1 of the final table, after the dispatch or the tail cascade; the tail of a short input leaves `b` and
`c` as seeded. -/
theorem fin1Result : Obligations.Fin1Result := by
  refine ⟨rfl, fun _ hs => finalOp_of_seeded hs finalRows_1 (finalStep_into_c 14 _) rfl, issuedOnlyAfter_fin1,
    issuedFirstWhen_fin1, fun tables data len hl => ?_⟩
  obtain ⟨hb, hc⟩ := tailFunction_of_le_four hl data 0 ⟨seedK + len, seedK + len, seedK + len⟩
  rw [beforeFinal_of_lt_block (by omega)]
  exact ⟨hb.trans hc.symm, hc⟩

/-- Settles O24: row 2 of the final table, after FIN1 in the final stage. -/
theorem fin2Result : Obligations.Fin2Result :=
  ⟨rfl, fun _ hs => finalOp_of_seeded hs finalRows_2 (finalStep_into_a 11 _) rfl,
    issuedOnlyAfter_of_finalLinks (by decide)⟩

/-- Settles O25: row 3 of the final table, after FIN2 in the final stage. -/
theorem fin3Result : Obligations.Fin3Result :=
  ⟨rfl, fun _ hs => finalOp_of_seeded hs finalRows_3 (finalStep_into_b 25 _) rfl,
    issuedOnlyAfter_of_finalLinks (by decide)⟩

/-- Settles O26: row 4 of the final table, after FIN3 in the final stage; no row after it targets `c`. -/
theorem fin4Result : Obligations.Fin4Result :=
  ⟨rfl, fun _ hs => finalOp_of_seeded hs finalRows_4 (finalStep_into_c 16 _) rfl,
    issuedOnlyAfter_of_finalLinks (by decide), fun _ _ _ => exec_next_c_after_fin4⟩

/-- Settles O27: row 5 of the final table, after FIN4 in the final stage. -/
theorem fin5Result : Obligations.Fin5Result :=
  ⟨rfl, fun _ hs => finalOp_of_seeded hs finalRows_5 (finalStep_into_a 4 _) rfl,
    issuedOnlyAfter_of_finalLinks (by decide)⟩

/-- Settles O28: row 6 of the final table, after FIN5 in the final stage. -/
theorem fin6Result : Obligations.Fin6Result :=
  ⟨rfl, fun _ hs => finalOp_of_seeded hs finalRows_6 (finalStep_into_b 14 _) rfl,
    issuedOnlyAfter_of_finalLinks (by decide)⟩

/-- Settles O29: RESULT writes `c` into `DIGEST` and leaves the block at `DONE`, after FIN6 in the final stage. -/
theorem resultHandsOutTheDigest : Obligations.ResultHandsOutTheDigest := by
  refine ⟨rfl, fun _ hs => execResult_of_seeded hs, fun s t h => ?_, issuedOnlyAfter_of_finalLinks (by decide)⟩
  obtain ⟨-, rfl⟩ := execResult_next h
  exact statusWord_done

/-- Settles O44: every row of the table has the two roles, which make its step a bijection; the round composes its rows. -/
theorem finalStepsAreBijections : Obligations.FinalStepsAreBijections := by
  have bijective : ∀ r ∈ roundTables.final, Function.Bijective (finalStep r) := fun r hr =>
    finalStep_bijective (roundTables_final_hasTwoRoles r hr)
  exact ⟨fun r hr => finalUnstep_finalStep (roundTables_final_hasTwoRoles r hr), bijective,
    foldl_bijective finalStep _ bijective, by decide⟩

end Sys2Proof.Machine
end

section
/-! Proofs of the statements on the sequencer and on `hash_bytes` (spec/44_sequencer_and_function.md). First the rules they
share: `upc` is what the table says in the state an operation leaves, what an operation makes of the
accumulators, and how a run executes the parts of the canonical stream. -/

namespace Sys2Proof.Machine

/-! ### The successor after an operation -/

/-- `upc` after an operation is its successor in the state it leaves (R181). -/
theorem exec_next_successor {i : Instr} {s t : State} (h : exec i s = .next t) : successor i t = some t.upc := by
  obtain ⟨m, u, -, hu, rfl⟩ := exec_next h
  exact (successor_congr (t := m) rfl (fastPath_congr rfl rfl) i).trans hu

/-- The dispatch has its target where the host's duty on `BASE` is done (R181, R243). -/
theorem loopTarget_of_baseReady {s : State} (h : s.baseReady) :
    loopTarget s = some (.op (dispatchTarget s.rem.toNat s.fast)) := by
  obtain ⟨u, hu⟩ := loopTarget_isSome (fastPath_eq h)
  rw [hu, loopTarget_eq_dispatchTarget hu]

/-- The steps of R181 from one operation to the next, without those of the dispatch. -/
def runLinks (fast : Bool) : List (Instr × Instr) :=
  blockPass.zip blockPass.tail ++ tailLinks fast ++ [(.tail1, .fin1), (.tailwa, .fin1)] ++ finalLinks

/-- No link begins with INIT, ADVANCE or RESULT: the dispatch follows the first two, and the last ends the run. -/
theorem first_of_runLinks (fast : Bool) : ∀ l ∈ runLinks fast, l.1 ∉ [Instr.init, .advance, .result] := by
  cases fast <;> decide

/-- The steps from an operation agree with its successor. -/
theorem successor_of_runLinks {i j : Instr} {s : State} (hb : s.baseReady) (h : (i, j) ∈ runLinks s.fast) :
    successor i s = some (.op j) := by
  have rows : ∀ l ∈ runLinks s.fast, successor l.1 s = some (.op l.2) := by
    simp [runLinks, blockPass, mixRound, tailLinks, finalLinks, finalStage, finalRound, successor,
      byPath_of_baseReady hb]
  exact rows _ h

/-- Each operation of the list leads to the next one. -/
abbrev linked (fast : Bool) (ops : List Instr) : Prop := ops.IsChain fun i j => (i, j) ∈ runLinks fast

/-! ### What an operation makes of the accumulators -/

/-- The accumulators after an operation with `p` bytes consumed (R111, R113, R130, R143, R144, R161). INIT, ADVANCE and
RESULT, which do more than write accumulators, are not meant. -/
def opEffect (data : Nat → Byte) (p : Nat) (i : Instr) (x : Acc) : Acc :=
  match i with
  | .absorb => absorbWords (le32At data p, le32At data (p + 4), le32At data (p + 8)) x
  | .mix1 => mixStep roundTables.mix[0] x
  | .mix2 => mixStep roundTables.mix[1] x
  | .mix3 => mixStep roundTables.mix[2] x
  | .mix4 => mixStep roundTables.mix[3] x
  | .mix5 => mixStep roundTables.mix[4] x
  | .mix6 => mixStep roundTables.mix[5] x
  | .tail1 => x.add .a (placeByte (data p) 0)
  | .tail2 => x.add .a (placeByte (data (p + 1)) 8)
  | .tail3 => x.add .a (placeByte (data (p + 2)) 16)
  | .tail4 => x.add .a (placeByte (data (p + 3)) 24)
  | .tail5 => x.add .b (placeByte (data (p + 4)) 0)
  | .tail6 => x.add .b (placeByte (data (p + 5)) 8)
  | .tail7 => x.add .b (placeByte (data (p + 6)) 16)
  | .tail8 => x.add .b (placeByte (data (p + 7)) 24)
  | .tail9 => x.add .c (placeByte (data (p + 8)) 8)
  | .tail10 => x.add .c (placeByte (data (p + 9)) 16)
  | .tail11 => x.add .c (placeByte (data (p + 10)) 24)
  | .tailwa => x.add .a (le32At data p)
  | .tailwb => x.add .b (le32At data (p + 4))
  | .fin1 => finalSteps (finalRows roundTables 0) x
  | .fin2 => finalSteps (finalRows roundTables 1) x
  | .fin3 => finalSteps (finalRows roundTables 2) x
  | .fin4 => finalSteps (finalRows roundTables 3) x
  | .fin5 => finalSteps (finalRows roundTables 4) x
  | .fin6 => finalSteps (finalRows roundTables 5) x
  | .init | .advance | .result => x

/-- An operation whose input is readable has its effect on the accumulators and goes to its successor; nothing else
changes. -/
theorem exec_of_opEffect {i : Instr} {s : State} {u : Upc} (hi : i ∉ [Instr.init, .advance, .result])
    (hs : s.seeded = true) (hr : s.canRead (readSpan i).2) (hu : successor i s = some u) :
    exec i s = .next { s with acc := opEffect s.data s.pos.toNat i s.acc, upc := u } := by
  cases i
  case init | advance | result => exact absurd (by decide) hi
  case absorb =>
    cases hu
    exact execAbsorb_of_readBlock hs (readBlock_of_canRead hr)
  case mix1 | mix2 | mix3 | mix4 | mix5 | mix6 =>
    cases hu
    exact mixOp_of_seeded hs rfl rfl
  case fin1 | fin2 | fin3 | fin4 | fin5 | fin6 =>
    cases hu
    exact finalOp_of_seeded hs rfl rfl rfl
  case tailwa | tailwb => exact addTailWord_of_successor hs hr rfl hu
  all_goals exact addTailByte_of_successor hs hr rfl hu

/-- The effects of a list of operations, in order. -/
def streamEffect (data : Nat → Byte) (p : Nat) (ops : List Instr) (x : Acc) : Acc :=
  ops.foldl (fun y i => opEffect data p i y) x

/-- ABSORB and the mix round are one pass of the bulk loop (R110). -/
theorem streamEffect_block (data : Nat → Byte) (p : Nat) (x : Acc) :
    streamEffect data p (.absorb :: mixRound) x = blockFunction roundTables data p x := rfl

theorem streamEffect_finalRound (data : Nat → Byte) (p : Nat) (x : Acc) :
    streamEffect data p finalRound x = applyFinal roundTables x := rfl

/-- The byte operations that a word operation stands for (R145). -/
def byteOps : Instr → List Instr
  | .tailwb => [.tail8, .tail7, .tail6, .tail5]
  | .tailwa => [.tail4, .tail3, .tail2, .tail1]
  | i => [i]

theorem foldl_opEffect_byteOps (data : Nat → Byte) (p : Nat) (i : Instr) (x : Acc) :
    (byteOps i).foldl (fun y k => opEffect data p k y) x = opEffect data p i x := by
  cases i
  case tailwb => exact Acc.add_placed_bytes x .b _ _ _ _
  case tailwa => exact Acc.add_placed_bytes x .a _ _ _ _
  all_goals rfl

/-- Both read paths add the same to the accumulators (R146). -/
theorem streamEffect_fastTail {n : Nat} (hn : n < 12) (data : Nat → Byte) (p : Nat) (x : Acc) :
    streamEffect data p (fastTail n) x = streamEffect data p (portableTail n) x := by
  have expansion : ∀ n < 12, (fastTail n).flatMap byteOps = portableTail n := by decide
  simp only [← expansion n hn, streamEffect, List.foldl_flatMap, foldl_opEffect_byteOps]

/-- The tail cascade adds the lines of the tail function whose numbers are at most the remaining length (R148, R188). -/
theorem streamEffect_portableTail {n : Nat} (hn : n < 12) (data : Nat → Byte) (p : Nat) (x : Acc) :
    streamEffect data p (portableTail n) x = tailFunction data p n x := by
  interval_cases n <;>
    simp [streamEffect, portableTail, byteCascade, opEffect, tailFunction, placeByte]

theorem streamEffect_tailStream {n : Nat} (hn : n < 12) (fast : Bool) (data : Nat → Byte) (p : Nat) (x : Acc) :
    streamEffect data p (tailStream n fast) x = tailFunction data p n x := by
  cases fast
  · exact streamEffect_portableTail hn data p x
  · exact (streamEffect_fastTail hn data p x).trans (streamEffect_portableTail hn data p x)

/-! ### Operations executed in order -/

/-- The operations of a list, each the one `upc` names when it executes, lead from `s` to `t` (R180). -/
def executes : List Instr → State → State → Prop
  | [], s, t => s = t
  | i :: ops, s, t => s.upc = .op i ∧ ∃ u, exec i s = .next u ∧ executes ops u t

theorem executes_singleton {i : Instr} {s t : State} (hu : s.upc = .op i) (h : exec i s = .next t) :
    executes [i] s t := ⟨hu, t, h, rfl⟩

theorem executes.append {ops more : List Instr} {s t u : State} (h₁ : executes ops s t) (h₂ : executes more t u) :
    executes (ops ++ more) s u := by
  induction ops generalizing s with
  | nil => cases h₁; exact h₂
  | cons i ops ih =>
    obtain ⟨hu, v, hv, h₁⟩ := h₁
    exact ⟨hu, v, hv, ih h₁⟩

/-- With no host request pending the sequencer's steps execute the operations. -/
theorem stepsTo_of_executes {ops : List Instr} {s t : State} (h : executes ops s t) (idle : s.requests = []) :
    stepsTo ops.length s t := by
  induction ops generalizing s with
  | nil => exact h
  | cons i ops ih =>
    obtain ⟨hu, v, hv, h⟩ := h
    obtain ⟨m, w, same, -, rfl⟩ := exec_next hv
    have step_i : step s = exec i s := by rw [step_of_no_request idle, sequencerStep, hu]
    exact ⟨_, step_i.trans hv, ih h (same.requests.trans idle)⟩

/-! ### A run -/

/-- The state of the run that INIT begins in `s`, with `p` bytes consumed, accumulators `x`, and `upc` at `i`. -/
def State.runState (s : State) (p : Nat) (x : Acc) (i : Instr) : State :=
  (s.seed x (BitVec.ofNat 32 p) (BitVec.ofNat 32 (s.len.toNat - p))).setUpc (.op i)

section Run
variable {s : State} {p : Nat}

theorem runState_pos (hp : p ≤ s.len.toNat) (x : Acc) (i : Instr) : (s.runState p x i).pos.toNat = p :=
  Nat.mod_eq_of_lt (by omega)

theorem runState_rem (x : Acc) (i : Instr) : (s.runState p x i).rem.toNat = s.len.toNat - p :=
  Nat.mod_eq_of_lt (by omega)

/-- ADVANCE moves the cursor of the run past a block. -/
theorem runState_setCursor (hp : p + 12 ≤ s.len.toNat) (x : Acc) (i : Instr) :
    (s.runState p x i).setCursor ((s.runState p x i).pos + blockSize) ((s.runState p x i).rem - blockSize) =
      s.runState (p + 12) x i := by
  have pos : BitVec.ofNat 32 p + blockSize = BitVec.ofNat 32 (p + 12) := (BitVec.ofNat_add p 12).symm
  have rem : BitVec.ofNat 32 (s.len.toNat - p) - blockSize = BitVec.ofNat 32 (s.len.toNat - (p + 12)) := by
    rw [Nat.sub_add_eq]
    exact BitVec.ofNat_sub_ofNat_of_le _ 12 (by decide) (by omega)
  simp only [State.runState, State.setUpc_pos, State.seed_pos, State.setUpc_rem, State.seed_rem, pos, rem]
  rfl

variable (ready : s.ReadyToRun)
include ready

/-- INIT seeds the run and goes where the dispatch leads. -/
theorem executes_init (hu : s.upc = .op .init) :
    executes [.init] s
      (s.runState 0 ⟨seedK + s.len, seedK + s.len, seedK + s.len⟩ (dispatchTarget s.len.toNat s.fast)) := by
  have seeds := (execInit_of_lenHeld ready.lenHeld).trans
    (retire_of_successor (i := .init) (loopTarget_of_baseReady ready.baseReady))
  refine executes_singleton hu (seeds.trans ?_)
  rw [State.runState, Nat.sub_zero, BitVec.ofNat_toNat, BitVec.setWidth_eq]
  rfl

/-- An operation inside the run has its effect and follows the table. -/
theorem exec_runState {x : Acc} {i j : Instr} (link : (i, j) ∈ runLinks s.fast)
    (reads : p + (readSpan i).2 ≤ s.len.toNat) :
    exec i (s.runState p x i) = .next (s.runState p (opEffect s.data p i x) j) := by
  have pos : (s.runState p x i).pos.toNat = p := runState_pos (by omega) x i
  have readable : (s.runState p x i).canRead (readSpan i).2 := by
    rw [State.canRead, pos]
    exact ⟨reads, reads.trans ready.readable⟩
  rw [exec_of_opEffect (first_of_runLinks _ _ link) rfl readable (successor_of_runLinks ready.baseReady link), pos]
  rfl

/-- A run goes through operations each of which leads to the next, if the input they read is there. -/
theorem executes_linked {ops : List Instr} {j : Instr} (links : linked s.fast (ops ++ [j]))
    (reads : ∀ i ∈ ops, p + (readSpan i).2 ≤ s.len.toNat) (x : Acc) :
    executes ops (s.runState p x (ops.head?.getD j)) (s.runState p (streamEffect s.data p ops x) j) := by
  induction ops generalizing x with
  | nil => rfl
  | cons i ops ih =>
    obtain ⟨link, links⟩ := List.isChain_cons.mp links
    have first : (i, ops.head?.getD j) ∈ runLinks s.fast := link _ (by cases ops <;> simp)
    exact ⟨rfl, _, exec_runState ready first (reads i List.mem_cons_self),
      ih links (fun k hk => reads k (List.mem_cons_of_mem i hk)) _⟩

/-- ADVANCE goes on to the next block, to the tail or to the final round. -/
theorem executes_advance (hp : p + 12 ≤ s.len.toNat) (x : Acc) :
    executes [.advance] (s.runState p x .advance)
      (s.runState (p + 12) x (dispatchTarget (s.len.toNat - (p + 12)) s.fast)) := by
  have target := loopTarget_of_baseReady (s := s.runState (p + 12) x .advance) ready.baseReady
  rw [runState_rem] at target
  refine executes_singleton rfl ((execAdvance_of_seeded rfl).trans ?_)
  rw [runState_setCursor hp]
  exact retire_of_successor target

/-- One pass of the bulk loop (R110). -/
theorem executes_blockPass (hp : p + 12 ≤ s.len.toNat) (x : Acc) :
    executes blockPass (s.runState p x .absorb)
      (s.runState (p + 12) (blockFunction roundTables s.data p x)
        (dispatchTarget (s.len.toNat - (p + 12)) s.fast)) := by
  have links : ∀ fast, linked fast (.absorb :: mixRound ++ [.advance]) := by decide
  have spans : ∀ i ∈ Instr.absorb :: mixRound, (readSpan i).2 ≤ 12 := by decide
  have reads : ∀ i ∈ Instr.absorb :: mixRound, p + (readSpan i).2 ≤ s.len.toNat := fun i hi => by
    have span := spans i hi
    omega
  have pass := executes_linked ready (links s.fast) reads x
  rw [streamEffect_block] at pass
  exact pass.append (executes_advance ready hp _)

/-- The bulk loop, which goes on while a whole block remains (R123). -/
theorem executes_bulk {q : Nat} (hp : p + 12 * q ≤ s.len.toNat) (x : Acc) :
    executes (List.replicate q blockPass).flatten (s.runState p x (dispatchTarget (s.len.toNat - p) s.fast))
      (s.runState (p + 12 * q) (bulkFunction roundTables s.data q p x)
        (dispatchTarget (s.len.toNat - (p + 12 * q)) s.fast)) := by
  induction q generalizing p x with
  | zero => rfl
  | succ q ih =>
    have block : dispatchTarget (s.len.toNat - p) s.fast = .absorb := if_pos (by omega)
    have consumed : p + 12 * (q + 1) = p + 12 + 12 * q := by omega
    rw [List.replicate_succ, List.flatten_cons, block, consumed]
    exact (executes_blockPass ready (by omega) x).append (ih (by omega) _)

/-- The tail cascade, with less than a block remaining (R148, R149). -/
theorem executes_tail (hn : s.len.toNat - p < 12) (hp : p ≤ s.len.toNat) (x : Acc) :
    executes (tailStream (s.len.toNat - p) s.fast)
      (s.runState p x (dispatchTarget (s.len.toNat - p) s.fast))
      (s.runState p (tailFunction s.data p (s.len.toNat - p) x) .fin1) := by
  have links : ∀ n < 12, ∀ fast, linked fast (tailStream n fast ++ [.fin1]) := by decide
  have spans : ∀ n < 12, ∀ fast, ∀ i ∈ tailStream n fast, (readSpan i).2 ≤ n := by decide
  have reads : ∀ i ∈ tailStream (s.len.toNat - p) s.fast, p + (readSpan i).2 ≤ s.len.toNat := fun i hi => by
    have span := spans _ hn s.fast i hi
    omega
  have cascade := executes_linked ready (links _ hn s.fast) reads x
  have first : dispatchTarget (s.len.toNat - p) s.fast = _ := if_neg (by omega)
  rwa [streamEffect_tailStream hn, ← first] at cascade

/-- The final round and RESULT (R160, R168). -/
theorem executes_final (hp : p ≤ s.len.toNat) (x : Acc) :
    executes (finalRound ++ [.result]) (s.runState p x .fin1)
      (((s.runState p (applyFinal roundTables x) .result).setDigest (some (applyFinal roundTables x).c)).setUpc
        .done) := by
  have links : ∀ fast, linked fast (finalRound ++ [.result]) := by decide
  have spans : ∀ i ∈ finalRound, (readSpan i).2 = 0 := by decide
  have reads : ∀ i ∈ finalRound, p + (readSpan i).2 ≤ s.len.toNat := fun i hi => by rwa [spans i hi]
  have round := executes_linked ready (links s.fast) reads x
  rw [streamEffect_finalRound] at round
  exact round.append (executes_singleton rfl (execResult_of_seeded rfl))

/-- From INIT the operations of the canonical stream lead to `DONE` and to the digest (R183, R188). -/
theorem executes_hashStream (hu : s.upc = .op .init) : ∃ m : State, SameSurroundings s m ∧
    executes (hashStream s.len.toNat s.fast) s ((m.setDigest (some (hashBytes s.data s.len))).setUpc .done) := by
  have remaining : s.len.toNat - 12 * (s.len.toNat / 12) = s.len.toNat % 12 := by omega
  have bulk := executes_bulk ready (p := 0) (q := s.len.toNat / 12) (by omega)
    ⟨seedK + s.len, seedK + s.len, seedK + s.len⟩
  have tail := executes_tail ready (p := 12 * (s.len.toNat / 12)) (by omega) (by omega)
    (bulkFunction roundTables s.data (s.len.toNat / 12) 0 ⟨seedK + s.len, seedK + s.len, seedK + s.len⟩)
  have final := executes_final ready (p := 12 * (s.len.toNat / 12)) (by omega) (beforeFinal roundTables s.data s.len)
  rw [Nat.zero_add, remaining] at bulk
  rw [remaining] at tail
  have run := (executes_init ready hu).append ((bulk.append tail).append final)
  rw [hashStream, List.append_assoc _ finalRound]
  exact ⟨s.runState (12 * (s.len.toNat / 12)) (applyFinal roundTables (beforeFinal roundTables s.data s.len)) .result,
    ⟨rfl, rfl, rfl, rfl, rfl, rfl, rfl⟩, run⟩

end Run

/-- The canonical stream has as many operations as the run (R184). -/
theorem length_hashStream (len : Nat) (fast : Bool) : (hashStream len fast).length = runLength len fast := by
  have tails : ∀ n < 12, ∀ fast, (tailStream n fast).length = tailCount n fast := by decide
  have lengths : blockPass.length = 8 ∧ finalRound.length = 6 := by decide
  simp only [hashStream, runLength, List.length_cons, List.length_append, List.length_flatten, List.map_replicate,
    List.sum_replicate, List.length_nil, lengths, tails _ (Nat.mod_lt len (by decide)) fast, smul_eq_mul]
  omega

/-- The host's START at rest: the request is gone, `DIGEST` holds no value, and `upc` is INIT (R33). -/
theorem step_of_start {s : State} (hu : s.upc.busy = false) (hr : s.requests = [.write .ctrl 1]) :
    step s = .next (((s.setRequests []).setDigest none).setUpc (.op .init)) := by
  rw [step_of_request hr]
  simp [serve, hostWrite, whenResting, writeCtrl, hu]

/-! ### The statements -/

/-- Settles O38: after START the sequencer executes the canonical stream, whose parts have the effect of the parts of
`hash_bytes`. -/
theorem runComputesHashBytes : Obligations.RunComputesHashBytes := by
  intro s hu ready hr
  obtain ⟨m, same, run⟩ := executes_hashStream (s := ((s.setRequests []).setDigest none).setUpc (.op .init))
    ⟨ready.lenHeld, ready.baseReady, ready.readable⟩ rfl
  have steps := stepsTo_of_executes run rfl
  rw [length_hashStream] at steps
  rw [Nat.add_comm 1]
  exact ⟨_, ⟨_, step_of_start hu hr, steps⟩, rfl, rfl, same.len, same.base, same.mem, same.requests⟩

/-- Settles O7: INIT and ADVANCE go to the target of the dispatch, TAIL9 and TAIL5 where the path leads, and every other
operation has one row. -/
theorem successorTable : Obligations.SuccessorTable := by
  intro i s t h
  have next {j : Instr} (hi : i = j) : successor j t = some t.upc := hi ▸ exec_next_successor h
  have row {j : Instr} {u : Upc} (hj : successor j t = some u) (hi : i = j) : t.upc = u :=
    Option.some.inj ((next hi).symm.trans hj)
  refine ⟨fun hi => ?_, row rfl, row rfl, row rfl, row rfl, row rfl, row rfl, row rfl, row rfl, row rfl,
    fun hi => byPath_eq_some_fast (next hi), row rfl, row rfl, row rfl,
    fun hi => byPath_eq_some_fast (next hi), row rfl, row rfl, row rfl, row rfl, row rfl, row rfl, row rfl, row rfl,
    row rfl, row rfl, row rfl, row rfl, row rfl⟩
  have dispatch := loopTarget_eq_dispatchTarget (exec_next_loopTarget hi h)
  have target {n : Nat} {j : Instr} (hj : ∀ fast, dispatchTarget n fast = j) : t.rem.toNat = n → t.upc = .op j := by
    rintro rfl
    rw [dispatch, hj]
  refine ⟨fun hr => ?_, target (by decide), target (by decide), target (by decide), fun hr hf => ?_, fun hr hf => ?_,
    target (by decide), target (by decide), target (by decide), fun hr hf => ?_, fun hr hf => ?_,
    target (by decide), target (by decide), target (by decide), target (by decide)⟩
  · rw [dispatch, dispatchTarget, if_pos hr]
  all_goals
    rw [dispatch, hr, hf]
    rfl

end Sys2Proof.Machine
end

section
/-! Proofs of the statements on what an operation writes (spec/10_state.md, spec/42_tail.md, spec/43_final_result.md).
First the rules they share: one lemma for each register on when an operation leaves it unchanged, and that no tail
byte reaches bits 7:0 of `c`. -/

namespace Sys2Proof.Machine

/-! ### What an operation writes -/

/-- What an operation writes beside `upc`: INIT all five working registers, ADVANCE the cursor, RESULT `DIGEST`, and
every other operation accumulators only (R22, R24, R25, R35). -/
theorem exec_next_writes {i : Instr} {s t : State} (h : exec i s = .next t) :
    (i = .init ∧ ∃ x p r u, t = (s.seed x p r).setUpc u) ∨ (i = .advance ∧ ∃ p r u, t = (s.setCursor p r).setUpc u) ∨
    (i = .result ∧ ∃ d u, t = (s.setDigest d).setUpc u) ∨ ∃ x u, t = (s.setAcc x).setUpc u := by
  cases i
  case init => obtain ⟨-, u, ht, -⟩ := execInit_next h; exact .inl ⟨rfl, _, _, _, u, ht⟩
  case advance => obtain ⟨-, u, ht, -⟩ := execAdvance_next h; exact .inr (.inl ⟨rfl, _, _, u, ht⟩)
  case result => obtain ⟨-, ht⟩ := execResult_next h; exact .inr (.inr (.inl ⟨rfl, _, _, ht⟩))
  all_goals refine .inr (.inr (.inr ?_))
  case absorb => obtain ⟨-, w, -, ht⟩ := execAbsorb_next h; exact ⟨_, _, ht⟩
  case tailwa | tailwb => obtain ⟨-, w, -, u, ht, -⟩ := addTailWord_next h; exact ⟨_, u, ht⟩
  case mix1 | mix2 | mix3 | mix4 | mix5 | mix6 => obtain ⟨-, u, ht, -⟩ := mixOp_next h; exact ⟨_, u, ht⟩
  case fin1 | fin2 | fin3 | fin4 | fin5 | fin6 => obtain ⟨-, u, ht, -⟩ := finalOp_next h; exact ⟨_, u, ht⟩
  all_goals obtain ⟨-, v, -, u, ht, -⟩ := addTailByte_next h; exact ⟨_, u, ht⟩

theorem seeded_of_exec_next {i : Instr} {s t : State} (hi : i ≠ .init) (h : exec i s = .next t) : s.seeded = true := by
  by_contra hs
  rw [exec_of_not_seeded (Bool.eq_false_iff.mpr hs) hi] at h
  cases h

/-- After every operation the working registers hold values: INIT writes them, and the others keep them (R41). -/
theorem exec_next_seeded {i : Instr} {s t : State} (h : exec i s = .next t) : t.seeded = true := by
  by_cases hi : i = .init
  · subst hi
    obtain ⟨-, u, rfl, -⟩ := execInit_next h
    rfl
  · have held := seeded_of_exec_next hi h
    obtain ⟨hn, -⟩ | ⟨-, p, r, u, rfl⟩ | ⟨-, d, u, rfl⟩ | ⟨x, u, rfl⟩ := exec_next_writes h
    · exact absurd hn hi
    all_goals exact held

/-- No operation but RESULT writes `DIGEST` (R35). -/
theorem exec_next_digest {i : Instr} {s t : State} (hi : i ≠ .result) (h : exec i s = .next t) :
    t.digest = s.digest := by
  obtain ⟨-, x, p, r, u, rfl⟩ | ⟨-, p, r, u, rfl⟩ | ⟨hn, -⟩ | ⟨x, u, rfl⟩ := exec_next_writes h
  case inr.inr.inl => exact absurd hn hi
  all_goals rfl

/-! ### What an operation makes of the accumulators -/

/-- An operation that reads the input has its effect on the accumulators (R111, R130, R143, R144). -/
theorem exec_next_acc_of_reads {i : Instr} {s t : State} (hr : 0 < (readSpan i).2) (h : exec i s = .next t) :
    t.acc = opEffect s.data s.pos.toNat i s.acc := by
  have reading : i ∉ [Instr.init, .advance, .result] := by
    revert hr
    cases i <;> decide
  have notInit : i ≠ .init := fun hi => reading (by simp [hi])
  have notAdvance : i ≠ .advance := fun ha => reading (by simp [ha])
  obtain ⟨m, u, same, hu, rfl⟩ := exec_next h
  obtain ⟨-, rem⟩ := exec_next_cursor notInit notAdvance h
  have next : successor i s = some u :=
    (successor_congr rem.symm (fastPath_congr same.base.symm same.baseHeld.symm) i).trans hu
  rw [exec_of_opEffect reading (seeded_of_exec_next notInit h) (canRead_of_exec_next hr h) next] at h
  exact (congrArg State.acc (Host.Outcome.next.inj h)).symm

/-- Every operation but INIT has its effect on the accumulators. -/
theorem exec_next_acc {i : Instr} {s t : State} (hi : i ≠ .init) (h : exec i s = .next t) :
    t.acc = opEffect s.data s.pos.toNat i s.acc := by
  cases i
  case init => exact absurd rfl hi
  case advance => obtain ⟨-, u, rfl, -⟩ := execAdvance_next h; rfl
  case result => obtain ⟨-, rfl⟩ := execResult_next h; rfl
  case mix1 | mix2 | mix3 | mix4 | mix5 | mix6 => obtain ⟨-, u, rfl, -⟩ := mixOp_next h; rfl
  case fin1 | fin2 | fin3 | fin4 | fin5 | fin6 => obtain ⟨-, u, rfl, -⟩ := finalOp_next h; rfl
  all_goals exact exec_next_acc_of_reads (by decide) h

/-- The effect of an operation leaves the accumulators that the table of R22 does not list for it. -/
theorem opEffect_unlisted (data : Nat → Byte) (p : Nat) (i : Instr) (x : Acc) :
    (i ∉ writesA → (opEffect data p i x).a = x.a) ∧ (i ∉ writesB → (opEffect data p i x).b = x.b) ∧
    (i ∉ writesC → (opEffect data p i x).c = x.c) := by
  cases i <;>
    simp [opEffect, mixStep_into_a, mixStep_into_b, mixStep_into_c, finalStep_into_a, finalStep_into_b,
      finalStep_into_c, writesA, writesB, writesC]

/-! ### The bits of a placed byte -/

theorem extractLsb'_placeByte_same {shift : Nat} (h : shift + 8 ≤ 32) (v : Byte) :
    (placeByte v shift).extractLsb' shift 8 = v := by
  ext k hk
  have inside : shift + k < 32 := by omega
  simp [placeByte, zext32, inside, BitVec.getLsbD_eq_getElem hk]

theorem extractLsb'_placeByte_below {shift start : Nat} (h : start + 8 ≤ shift) (v : Byte) :
    (placeByte v shift).extractLsb' start 8 = 0#8 := by
  ext k hk
  have below : start + k < shift := by omega
  simp [placeByte, below]

theorem extractLsb'_placeByte_above {shift start : Nat} (h : shift + 8 ≤ start) (v : Byte) :
    (placeByte v shift).extractLsb' start 8 = 0#8 := by
  ext k hk
  have above : v.getLsbD (start + k - shift) = false := BitVec.getLsbD_of_ge v _ (by omega)
  simp [placeByte, zext32, above]

/-! ### Bits 7:0 of `c` -/

/-- A byte shifted left by at least 8 does not reach bits 7:0 of the word it is added to. -/
theorem lowByte_add_shifted {shift : Nat} (h : 8 ≤ shift) (x : Word) (v : Byte) :
    (x + (zext32 v <<< shift)).extractLsb' 0 8 = x.extractLsb' 0 8 := by
  have clear : (zext32 v <<< shift).extractLsb' 0 8 = 0#8 := extractLsb'_placeByte_below h v
  rw [BitVec.extractLsb'_add (by decide), clear, BitVec.add_zero]

/-- No tail operation changes bits 7:0 of `c`: those that write `c` add a byte shifted by 8, 16 or 24 (R130). -/
theorem opEffect_tail_lowByte {i : Instr} (hi : i.family = .tail) (data : Nat → Byte) (p : Nat) (x : Acc) :
    (opEffect data p i x).c.extractLsb' 0 8 = x.c.extractLsb' 0 8 := by
  by_cases hc : i ∈ writesC
  · have shifted : i = .tail9 ∨ i = .tail10 ∨ i = .tail11 := by
      revert hi hc
      cases i <;> decide
    obtain rfl | rfl | rfl := shifted
    · exact lowByte_add_shifted (shift := 8) (by decide) x.c (data (p + 8))
    · exact lowByte_add_shifted (shift := 16) (by decide) x.c (data (p + 9))
    · exact lowByte_add_shifted (shift := 24) (by decide) x.c (data (p + 10))
  · obtain ⟨-, -, unlisted⟩ := opEffect_unlisted data p i x
    rw [unlisted hc]

/-- A line of the tail function into `c`, executed or not, leaves bits 7:0 (R130). -/
theorem lowByte_tailLine {shift : Nat} (h : 8 ≤ shift) (executed : Prop) [Decidable executed] (x : Word) (v : Byte) :
    (if executed then x + (zext32 v <<< shift) else x).extractLsb' 0 8 = x.extractLsb' 0 8 := by
  split
  · exact lowByte_add_shifted h x v
  · rfl

theorem tailFunction_lowByte (data : Nat → Byte) (p n : Nat) (x : Acc) :
    (tailFunction data p n x).c.extractLsb' 0 8 = x.c.extractLsb' 0 8 := by
  simp (disch := decide) only [tailFunction, lowByte_tailLine]

/-! ### A read that is not admitted -/

theorem onInput_none {α : Type} (k : α → Outcome) : onInput none k = .fault .unreadableInput := rfl

theorem readBlock_eq_none {s : State} (h : ¬ s.canRead 12) : readBlock s = none :=
  Option.eq_none_iff_forall_ne_some.mpr fun w hw => h (exists_readBlock_iff.mp ⟨w, hw⟩)

theorem execAbsorb_of_not_canRead {s : State} (hs : s.seeded = true) (h : ¬ s.canRead 12) :
    execAbsorb s = .fault .unreadableInput := by
  rw [execAbsorb, onWorking_of_seeded hs, readBlock_eq_none h, onInput_none]

theorem addTailByte_of_not_canRead {i : Instr} {r : Reg} {index shift : Nat} {s : State} (hs : s.seeded = true)
    (h : ¬ s.canRead (index + 1)) : addTailByte i r index shift s = .fault .unreadableInput := by
  rw [addTailByte, onWorking_of_seeded hs, readByte_eq_none (off := s.pos.toNat + index) h, onInput_none]

theorem addTailWord_of_not_canRead {i : Instr} {r : Reg} {index : Nat} {s : State} (hs : s.seeded = true)
    (h : ¬ s.canRead (index + 4)) : addTailWord i r index s = .fault .unreadableInput := by
  rw [addTailWord, onWorking_of_seeded hs, readWord_eq_none (off := s.pos.toNat + index) h, onInput_none]

/-- An operation with its input beyond `LEN` or the extent stops (R62). -/
theorem exec_of_not_canRead {i : Instr} {s : State} (hs : s.seeded = true) (hr : 0 < (readSpan i).2)
    (h : ¬ s.canRead (readSpan i).2) : exec i s = .fault .unreadableInput := by
  cases i
  case absorb => exact execAbsorb_of_not_canRead hs h
  case tailwa | tailwb => exact addTailWord_of_not_canRead hs h
  case tail1 | tail2 | tail3 | tail4 | tail5 | tail6 | tail7 | tail8 | tail9 | tail10 | tail11 =>
    exact addTailByte_of_not_canRead hs h
  all_goals exact absurd hr (Nat.lt_irrefl 0)

/-! ### The statements -/

/-- Settles O35: the cursor is written by INIT and ADVANCE, `DIGEST` by RESULT, and the accumulators as the effect of
the operation says. -/
theorem operationFrame : Obligations.OperationFrame := by
  intro i s t h
  obtain ⟨m, u, same, -, ht⟩ := exec_next h
  refine ⟨ht ▸ ⟨same.len, same.lenHeld, same.base, same.baseHeld, same.requests, same.reply⟩,
    fun hi ha => exec_next_cursor hi ha h, fun hi => (exec_next_seeded h).trans (seeded_of_exec_next hi h).symm,
    fun hi => exec_next_digest hi h, ?_⟩
  by_cases hi : i = .init
  · subst hi
    exact ⟨(absurd (by decide) ·), (absurd (by decide) ·), (absurd (by decide) ·)⟩
  · rw [exec_next_acc hi h]
    exact opEffect_unlisted _ _ _ _

/-- Settles O22: the bytes that go into `c` are shifted left by 8, 16 and 24. -/
theorem tailLeavesLowByteOfC : Obligations.TailLeavesLowByteOfC := by
  refine ⟨fun i s t hi h => ?_, tailFunction_lowByte⟩
  have notInit : i ≠ .init := by
    rintro rfl
    cases hi
  rw [exec_next_acc notInit h]
  exact opEffect_tail_lowByte hi _ _ _

/-- Settles O33: the read the operation begins with answers nothing. -/
theorem unreadableInputHasNoStep : Obligations.UnreadableInputHasNoStep :=
  fun _ _ hs hr hn => exec_of_not_canRead hs hr hn

/-- Settles O45: none of the operations after FIN4 writes `c`, and RESULT takes the digest from it. -/
theorem digestIsFixedAfterFin4 : Obligations.DigestIsFixedAfterFin4 := by
  intro s hs
  obtain ⟨t₄, exec4⟩ : ∃ t, exec .fin4 s = .next t := ⟨_, finalOp_of_seeded hs finalRows_4 rfl rfl⟩
  obtain ⟨t₅, exec5⟩ : ∃ t, exec .fin5 t₄ = .next t :=
    ⟨_, finalOp_of_seeded (exec_next_seeded exec4) finalRows_5 rfl rfl⟩
  obtain ⟨t₆, exec6⟩ : ∃ t, exec .fin6 t₅ = .next t :=
    ⟨_, finalOp_of_seeded (exec_next_seeded exec5) finalRows_6 rfl rfl⟩
  have kept : t₆.acc.c = t₄.acc.c :=
    (exec_next_c_after_fin4 (by decide) exec6).trans (exec_next_c_after_fin4 (by decide) exec5)
  exact ⟨t₄, t₅, t₆, _, exec4, exec5, exec6, execResult_of_seeded (exec_next_seeded exec6), congrArg some kept⟩

end Sys2Proof.Machine
end

section
/-! Proofs of the statements on the invariant (spec/10_state.md, spec/20_memory.md). First the rules they share: the
sequencer issues an operation only where its `phase` holds, and each clause of the invariant survives an operation and a
host request. -/

namespace Sys2Proof.Machine

/-! ### The phase of an operation -/

/-- The phase of an operation looks at nothing but `rem` and the path condition. -/
theorem phase_congr {s t : State} (hr : s.rem = t.rem) (hf : fastPath s = fastPath t) (i : Instr) :
    phase i s ↔ phase i t := by
  cases i <;> simp only [phase, hr, hf]

/-- The dispatch issues an operation only where its phase holds (R181). -/
theorem phase_of_loopTarget {s : State} {i : Instr} (h : loopTarget s = some (.op i)) : phase i s := by
  unfold loopTarget at h
  split at h
  case h_5 hr | h_9 hr =>
    obtain ⟨hf, hu⟩ | ⟨hf, hu⟩ := byPath_eq_some h <;> cases hu <;> exact ⟨by omega, by omega, hf⟩
  case h_13 =>
    cases h
    change 12 ≤ s.rem.toNat
    grind
  all_goals
    rename_i hr
    cases h
    simp [phase, hr]

/-- Where an operation other than those of the dispatch has its phase, so has the operation issued after it (R181). -/
theorem phase_of_successor {i j : Instr} {s : State} (hi : i ∉ [Instr.init, .advance]) (hp : phase i s)
    (h : successor i s = some (.op j)) : phase j s := by
  cases i
  case init | advance => exact absurd (by decide) hi
  case tail9 | tail5 =>
    obtain ⟨hf, hu⟩ | ⟨hf, hu⟩ := byPath_eq_some h <;> cases hu <;> simp only [phase] at hp ⊢ <;>
      exact ⟨by omega, by omega, hf⟩
  case result => cases h
  all_goals
    cases h
    simp only [phase] at hp ⊢
    grind

/-! ### Inside a run -/

/-- After INIT the run of `LEN` bytes begins, at the target of the dispatch (R26, R100). -/
theorem execInit_next_inRun {s t : State} {j : Instr} (h : exec .init s = .next t) (hu : t.upc = .op j) :
    t.InRun j := by
  have issued := exec_next_successor h
  obtain ⟨held, u, rfl, -⟩ := execInit_next h
  exact
    { seeded := rfl
      lenHeld := held
      split := Nat.zero_add _
      blocks := rfl
      phase := phase_of_loopTarget (hu ▸ issued) }

/-- ADVANCE, at which a whole block remains, consumes twelve bytes (R26, R120). -/
theorem execAdvance_next_inRun {s t : State} {j : Instr} (run : s.InRun .advance) (h : exec .advance s = .next t)
    (hu : t.upc = .op j) : t.InRun j := by
  have issued := exec_next_successor h
  obtain ⟨held, u, rfl, -⟩ := execAdvance_next h
  have block : 12 ≤ s.rem.toNat := run.phase
  have total := run.split
  have multiple := run.blocks
  have pos : (s.pos + blockSize).toNat = s.pos.toNat + 12 := by simp only [blockSize]; bv_omega
  have rem : (s.rem - blockSize).toNat = s.rem.toNat - 12 := by simp only [blockSize]; bv_omega
  exact
    { seeded := held
      lenHeld := run.lenHeld
      split := by
        simp only [State.setUpc_pos, State.setUpc_rem, State.setUpc_len, State.setCursor_pos, State.setCursor_rem,
          State.setCursor_len, pos, rem]
        omega
      blocks := by
        simp only [State.setUpc_pos, State.setCursor_pos, pos]
        omega
      phase := phase_of_loopTarget (hu ▸ issued) }

/-- Any other operation keeps the cursor, and its successor is an operation that the same `rem` and path allow. -/
theorem exec_next_inRun_of_cursor {i j : Instr} {s t : State} (hi : i ≠ .init) (ha : i ≠ .advance) (run : s.InRun i)
    (h : exec i s = .next t) (hu : t.upc = .op j) : t.InRun j := by
  obtain ⟨m, u, same, -, ht⟩ := exec_next h
  obtain ⟨pos, rem⟩ := exec_next_cursor hi ha h
  have len : t.len = s.len := ht ▸ same.len
  have lenHeld : t.lenHeld = s.lenHeld := ht ▸ same.lenHeld
  have path : fastPath s = fastPath t := fastPath_congr (ht ▸ same.base.symm) (ht ▸ same.baseHeld.symm)
  have phase_t : phase i t := (phase_congr rem.symm path i).mp run.phase
  exact
    { seeded := exec_next_seeded h
      lenHeld := lenHeld.trans run.lenHeld
      split := by rw [pos, rem, len]; exact run.split
      blocks := by rw [pos]; exact run.blocks
      phase := phase_of_successor (by simp [hi, ha]) phase_t (hu ▸ exec_next_successor h) }

theorem exec_next_inRun {i j : Instr} {s t : State} (run : i ≠ .init → s.InRun i) (h : exec i s = .next t)
    (hu : t.upc = .op j) : t.InRun j := by
  by_cases hi : i = .init
  · subst hi
    exact execInit_next_inRun h hu
  by_cases ha : i = .advance
  · subst ha
    exact execAdvance_next_inRun (run hi) h hu
  · exact exec_next_inRun_of_cursor hi ha (run hi) h hu

/-! ### Every step keeps the invariant -/

/-- After an operation the block is at `DONE` exactly if it was RESULT (R181). -/
theorem exec_next_upc_done_iff {i : Instr} {s t : State} (h : exec i s = .next t) : t.upc = .done ↔ i = .result := by
  have next := exec_next_successor h
  constructor
  · intro hu
    rw [hu] at next
    cases i
    case result => rfl
    case init | advance =>
      obtain ⟨j, hj, -⟩ := loopTarget_eq_some_op next
      cases hj
    case tail9 | tail5 => cases byPath_eq_some_fast next
    all_goals cases next
  · rintro rfl
    exact (Option.some.inj next).symm

/-- RESULT gives `DIGEST` its value and ends the run; the other operations do neither (R35, R168). -/
theorem exec_next_digest_iff {i : Instr} {s t : State} (none_before : s.digest = none) (h : exec i s = .next t) :
    t.digest.isSome = true ↔ t.upc = .done := by
  rw [exec_next_upc_done_iff h]
  by_cases hi : i = .result
  · subst hi
    obtain ⟨-, rfl⟩ := execResult_next h
    simp
  · simp [exec_next_digest hi h, none_before, hi]

theorem State.Inv.of_exec_next {i : Instr} {s t : State} (inv : s.Inv) (hu : s.upc = .op i) (h : exec i s = .next t) :
    t.Inv := by
  obtain ⟨m, u, same, -, ht⟩ := exec_next h
  have base : t.base = s.base := ht ▸ same.base
  have noDigest : s.digest = none := Option.not_isSome_iff_eq_none.mp fun hd => by
    rw [inv.digest.mp hd] at hu
    cases hu
  exact
    { input := (exec_next_mem h).symm ▸ inv.input
      baseFits := base.symm ▸ inv.baseFits
      digest := exec_next_digest_iff noDigest h
      running := fun j hj _ => exec_next_inRun (inv.running i hu) h hj }

/-- The pending requests and the reply are not among what the invariant speaks of. -/
theorem State.Inv.withPort {s : State} (inv : s.Inv) (rs : List HostRequest) (reply : Option Nat) :
    ({ s with requests := rs, reply := reply } : State).Inv where
  input := inv.input
  baseFits := inv.baseFits
  digest := inv.digest
  running := fun i hu hi => by
    obtain ⟨seeded, lenHeld, split, blocks, phase⟩ := inv.running i hu hi
    exact ⟨seeded, lenHeld, split, blocks, (phase_congr rfl rfl i).mp phase⟩

/-- At rest the invariant says nothing of a run. -/
theorem State.Inv.of_resting {s : State} (hb : s.upc.busy = false) (input : s.mem.wf = true)
    (baseFits : s.base < 2 ^ Config.xaddr) (digest : s.digest.isSome = true ↔ s.upc = .done) : s.Inv where
  input := input
  baseFits := baseFits
  digest := digest
  running := fun i hu => by
    rw [hu] at hb
    cases hb

theorem State.Inv.of_reset {m : Memory} (hm : m.wf = true) (rs : List HostRequest) :
    ({ State.reset with mem := m, requests := rs } : State).Inv :=
  .of_resting rfl hm (Nat.two_pow_pos _) (by simp [State.reset])

/-- A write that the host makes at rest keeps the invariant: `BASE` keeps the bits it has, and a START clears
`DIGEST`. -/
theorem State.Inv.of_hostWrite_next {r : HostReg} {v : Nat} {s t : State} (inv : s.Inv)
    (h : hostWrite r v s = .next t) : t.Inv := by
  obtain ⟨resting, ⟨-, rfl⟩ | ⟨-, rfl⟩ | ⟨-, rfl⟩ | ⟨-, rfl⟩⟩ := hostWrite_next h
  · exact .of_resting resting inv.input inv.baseFits inv.digest
  · exact .of_resting resting inv.input (Nat.mod_lt _ (Nat.two_pow_pos _)) inv.digest
  · exact ⟨inv.input, inv.baseFits, by simp, fun i hu hi => absurd (Upc.op.inj hu).symm hi⟩
  · exact inv

theorem State.Inv.of_serve_next {r : HostRequest} {s t : State} (inv : s.Inv) (h : serve r s = .next t) : t.Inv := by
  cases r with
  | write reg v => exact inv.of_hostWrite_next h
  | read reg =>
    obtain ⟨v, rfl⟩ := hostRead_next h
    exact inv.withPort s.requests (some v)
  | supply bytes =>
    obtain ⟨resting, rfl⟩ := supplyInput_next h
    exact .of_resting resting (Memory.ofBytes_wf bytes) inv.baseFits inv.digest
  | reset =>
    cases h
    exact .of_reset inv.input s.requests
  | issue code =>
    obtain ⟨i, -, -, hu, hx⟩ := issueCode_next h
    exact inv.of_exec_next hu hx

/-! ### The statements -/

/-- Settles O36: a step is the service of a host request or an operation, and each keeps the invariant. -/
theorem stepKeepsTheInvariant : Obligations.StepKeepsTheInvariant := by
  intro s t inv h
  obtain ⟨r, rs, -, hs⟩ | ⟨-, i, hu, hx⟩ := step_next h
  · exact (inv.withPort rs s.reply).of_serve_next hs
  · exact inv.of_exec_next hu hx

/-- Settles O37: the block rests, and the input of reset is in canonical form. -/
theorem invariantAtReset : Obligations.InvariantAtReset := .of_reset State.reset_mem_wf []

end Sys2Proof.Machine
end

section
/-! Proofs of the statements on runs, streams and the functions they compute (spec/30_encoding.md,
spec/44_sequencer_and_function.md). First the rules they share: `hash_bytes` looks at the bytes below the length only,
what the block makes of a stream of codes, and what the operations of a round compose to. -/

namespace Sys2Proof.Machine

/-! ### `hash_bytes` looks at the bytes below the length only -/

section Bytes
variable {data₁ data₂ : Nat → Byte}

/-- A word is determined by its four bytes (R13). -/
theorem le32At_congr {off : Nat} (agree : ∀ k < 4, data₁ (off + k) = data₂ (off + k)) :
    le32At data₁ off = le32At data₂ off := by
  have byte0 : data₁ off = data₂ off := agree 0 (by decide)
  rw [le32At, le32At, byte0, agree 1 (by decide), agree 2 (by decide), agree 3 (by decide)]

theorem blockFunction_congr {p : Nat} (agree : ∀ off < p + 12, data₁ off = data₂ off) (t : RoundTables) (x : Acc) :
    blockFunction t data₁ p x = blockFunction t data₂ p x := by
  have word (off : Nat) (hoff : off + 4 ≤ p + 12) : le32At data₁ off = le32At data₂ off :=
    le32At_congr fun k hk => agree _ (by omega)
  rw [blockFunction, blockFunction, word p (by omega), word (p + 4) (by omega), word (p + 8) (by omega)]

theorem bulkFunction_congr {q p : Nat} (agree : ∀ off < p + 12 * q, data₁ off = data₂ off) (t : RoundTables) (x : Acc) :
    bulkFunction t data₁ q p x = bulkFunction t data₂ q p x := by
  induction q generalizing p x with
  | zero => rfl
  | succ q ih =>
    rw [bulkFunction, bulkFunction, blockFunction_congr fun off hoff => agree off (by omega)]
    exact ih (fun off hoff => agree off (by omega)) _

/-- A line of the tail function looks at its byte only where its number is at most the remaining length (R130). -/
theorem tailFunction_congr {p n : Nat} (agree : ∀ off < p + n, data₁ off = data₂ off) (x : Acc) :
    tailFunction data₁ p n x = tailFunction data₂ p n x := by
  have byte (k : Nat) (hk : k + 1 ≤ n) : zext32 (data₁ (p + k)) = zext32 (data₂ (p + k)) := by
    rw [agree (p + k) (by omega)]
  have shifted (k shift : Nat) (y : Word) : (if k + 1 ≤ n then y + (zext32 (data₁ (p + k)) <<< shift) else y) =
      if k + 1 ≤ n then y + (zext32 (data₂ (p + k)) <<< shift) else y :=
    ite_congr rfl (fun hk => by rw [byte k hk]) fun _ => rfl
  have unshifted (k : Nat) (y : Word) : (if k + 1 ≤ n then y + zext32 (data₁ (p + k)) else y) =
      if k + 1 ≤ n then y + zext32 (data₂ (p + k)) else y :=
    ite_congr rfl (fun hk => by rw [byte k hk]) fun _ => rfl
  have first (y : Word) : (if 1 ≤ n then y + zext32 (data₁ p) else y) =
      if 1 ≤ n then y + zext32 (data₂ p) else y := unshifted 0 y
  simp only [tailFunction, shifted 10, shifted 9, shifted 8, shifted 7, shifted 6, shifted 5, unshifted 4, shifted 3,
    shifted 2, shifted 1, first]

theorem hashBytes_congr {len : Word} (agree : ∀ off < len.toNat, data₁ off = data₂ off) :
    hashBytes data₁ len = hashBytes data₂ len := by
  have whole : 12 * (len.toNat / 12) + len.toNat % 12 = len.toNat := Nat.div_add_mod _ _
  simp only [hashBytes, hashBytesWith, beforeFinal]
  rw [bulkFunction_congr fun off hoff => agree off (by omega), tailFunction_congr fun off hoff => agree off (by omega)]

end Bytes

theorem State.data_congr {s₁ s₂ : State} {off : Nat} (h : s₁.mem.byteAt off = s₂.mem.byteAt off) :
    s₁.data off = s₂.data off := by rw [State.data, State.data, h]

/-! ### A stream of codes handed to the block -/

theorem issueCode_of_decodeCode {code : Byte} {i : Instr} (hd : decodeCode code = some i) (s : State) :
    issueCode code s = if s.upc = .op i then exec i s else .refused .notARun := by
  rw [issueCode, decode_cons_of_some hd]

/-- A code out of place is refused (notes/assumptions/17.md). -/
theorem issueAll_out_of_place {i : Instr} {s : State} (hu : s.upc ≠ .op i) (ops : List Instr) :
    issueAll (encodeAll (i :: ops)) s = .refused .notARun := by
  rw [encodeAll_cons, issueAll, issueCode_of_decodeCode (decodeCode_encodeCode i), if_neg hu]

theorem issueAll_in_place {i : Instr} {s t : State} (hu : s.upc = .op i) (h : exec i s = .next t) (ops : List Instr) :
    issueAll (encodeAll (i :: ops)) s = issueAll (encodeAll ops) t := by
  rw [encodeAll_cons, issueAll, issueCode_of_decodeCode (decodeCode_encodeCode i), if_pos hu, h]

/-- The codes of the operations that a run executes lead to the end of the run. -/
theorem issueAll_of_executes {ops : List Instr} {s t : State} (run : executes ops s t) (ended : t.upc = .done) :
    issueAll (encodeAll ops) s = .next t := by
  induction ops generalizing s with
  | nil =>
    cases run
    exact if_pos ended
  | cons i ops ih =>
    obtain ⟨hu, u, hx, run⟩ := run
    rw [issueAll_in_place hu hx, ih run]

/-- Where a run executes one list of operations to its end, any other list meets a code out of place, or ends early.
-/
theorem issueAll_of_executes_other {run ops : List Instr} {s t : State} (h : executes run s t) (ended : t.upc = .done)
    (other : ops ≠ run) : issueAll (encodeAll ops) s = .refused .notARun := by
  induction run generalizing s ops with
  | nil =>
    cases h
    cases ops with
    | nil => exact absurd rfl other
    | cons j ops => exact issueAll_out_of_place (by simp [ended]) ops
  | cons i run ih =>
    obtain ⟨hu, u, hx, h⟩ := h
    cases ops with
    | nil => exact if_neg (by simp [hu])
    | cons j ops =>
      by_cases hj : j = i
      · subst hj
        rw [issueAll_in_place hu hx]
        exact ih h fun same => other (congrArg (j :: ·) same)
      · exact issueAll_out_of_place (fun hi => hj (Upc.op.inj (hi.symm.trans hu))) ops

/-- The codes of a well-formed stream are handed to the block one after the other (R88). -/
theorem runStream_of_wf {ops : List Instr} (hw : streamWf ops = true) (s : State) :
    runStream (encodeAll ops) s = issueAll (encodeAll ops) s := by
  simp [runStream, hw]

/-- A stream whose codes the block refuses is refused, whether the check of the stream passes or not. -/
theorem runStream_refused {ops : List Instr} {s : State}
    (h : streamWf ops = true → issueAll (encodeAll ops) s = .refused .notARun) :
    runStream (encodeAll ops) s = .refused .notARun := by
  cases hw : streamWf ops with
  | true => rw [runStream_of_wf hw, h hw]
  | false => exact runStream_of_not_wf (decodeAll_encodeAll ops) hw s

theorem streamWf_hashStream (len : Word) (fast : Bool) : streamWf (hashStream len.toNat fast) = true :=
  streamWf_iff.mpr ⟨_, _, len.isLt, rfl⟩

/-! ### The operations of a round in order -/

/-- The rows of FIN1 to FIN6 in order are the table: one row each, and with FIN6 the rest (R160,
notes/assumptions/12.md). -/
theorem flatMap_finalRows (t : RoundTables) : (List.finRange 6).flatMap (finalRows t) = t.final := by
  have row (k : Nat) : (t.final.drop k).take 1 ++ t.final.drop (k + 1) = t.final.drop k := by
    rw [← List.drop_drop, List.take_append_drop]
  calc (List.finRange 6).flatMap (finalRows t)
    _ = t.final.take 1 ++ ((t.final.drop 1).take 1 ++ ((t.final.drop 2).take 1 ++ ((t.final.drop 3).take 1 ++
          ((t.final.drop 4).take 1 ++ t.final.drop 5)))) := by
      simp [List.finRange_succ, finalRows]
    _ = t.final := by rw [row 4, row 3, row 2, row 1, List.take_append_drop]

theorem foldl_finalSteps {α : Type} (rows : α → List FinalRow) (ks : List α) (x : Acc) :
    ks.foldl (fun y k => finalSteps (rows k) y) x = finalSteps (ks.flatMap rows) x := by
  simp only [finalSteps, List.foldl_flatMap]

theorem map_getElem_finRange {α : Type} {n : Nat} (v : Vector α n) : (List.finRange n).map (v[·]) = v.toList := by
  rw [← List.ofFn_eq_map, ← Vector.toList_ofFn]
  simp

/-! ### The statements -/

/-- Settles O39: both runs compute `hash_bytes`, which looks at the bytes below `LEN` only. -/
theorem digestDependsOnDataAndLengthOnly : Obligations.DigestDependsOnDataAndLengthOnly := by
  intro s₁ s₂ rest₁ rest₂ ready₁ ready₂ start₁ start₂ hlen agree
  obtain ⟨t₁, run₁, done₁, digest₁, -⟩ := runComputesHashBytes s₁ rest₁ ready₁ start₁
  obtain ⟨t₂, run₂, done₂, digest₂, -⟩ := runComputesHashBytes s₂ rest₂ ready₂ start₂
  have same : hashBytes s₁.data s₁.len = hashBytes s₂.data s₁.len :=
    hashBytes_congr fun off hoff => State.data_congr (agree off hoff)
  exact ⟨t₁, t₂, run₁, run₂, done₁, done₂, by simp [digest₁], by rw [digest₁, digest₂, same, hlen]⟩

/-- Settles O40: the sequencer's own run is the canonical stream, and any other list of codes leaves it. -/
theorem onlyTheCanonicalStreamRuns : Obligations.OnlyTheCanonicalStreamRuns := by
  refine ⟨fun s ops hu ready => ?_, fun s ops hu => runStream_refused fun hw => ?_⟩
  · obtain ⟨m, -, run⟩ := executes_hashStream ready hu
    refine ⟨?_, fun other => runStream_refused fun _ => issueAll_of_executes_other run rfl other⟩
    rintro rfl
    exact ⟨_, (runStream_of_wf (streamWf_hashStream _ _) s).trans (issueAll_of_executes run rfl), rfl, rfl⟩
  · obtain ⟨len, fast, -, rfl⟩ := streamWf_iff.mp hw
    exact issueAll_out_of_place hu _

/-- Settles O41: the canonical stream is as long as the run; the last clause is the length of the largest one. -/
theorem runLengthFormula : Obligations.RunLengthFormula :=
  ⟨fun len => length_hashStream len false, fun len => length_hashStream len true, by decide⟩

/-- Settles O42: the rows that the operations of a round take, one after the other, are the whole table. -/
theorem mixRoundMatchesItsListing : Obligations.MixRoundMatchesItsListing := by
  refine ⟨fun t x => ?_, fun t x => ?_, fun x => rfl, fun x => rfl⟩
  · rw [applyMix, ← map_getElem_finRange, List.foldl_map]
  · rw [foldl_finalSteps, flatMap_finalRows, applyFinal]

/-- Settles O46: the empty input leaves the seed for the final round. -/
theorem emptyInputDigest : Obligations.EmptyInputDigest := by
  intro data
  have seeded : beforeFinal roundTables data 0#32 = ⟨seedK, seedK, seedK⟩ := by
    rw [beforeFinal_of_lt_block (by decide)]
    rfl
  rw [hashBytes, hashBytesWith, seeded]
  decide

end Sys2Proof.Machine
end

section
/-! Proofs of the statements on words, codes and what selects an operation (spec/00_scope.md, spec/20_memory.md,
spec/30_encoding.md, spec/44_sequencer_and_function.md). First the rules they share: the bits of a rotated and of a
composed word, what the decoder answers, and what the block does with a code. -/

namespace Sys2Proof.Machine

/-! ### The bits of a word -/

theorem rotl_eq_rotateLeftAux (x : Word) (r : Nat) : rotl x r = x.rotateLeftAux r := rfl

/-- Each byte of a composed word stands where it was placed (R13, R56). -/
theorem extractLsb'_composeWord (b0 b1 b2 b3 : Byte) :
    (composeWord b0 b1 b2 b3).extractLsb' 0 8 = b0 ∧ (composeWord b0 b1 b2 b3).extractLsb' 8 8 = b1 ∧
    (composeWord b0 b1 b2 b3).extractLsb' 16 8 = b2 ∧ (composeWord b0 b1 b2 b3).extractLsb' 24 8 = b3 := by
  simp (disch := decide) only [composeWord, BitVec.extractLsb'_or, extractLsb'_placeByte_same,
    extractLsb'_placeByte_below, extractLsb'_placeByte_above, BitVec.or_zero, BitVec.zero_or, and_self]

/-- If a word read answers, it answers the composition of what the four byte reads answer. -/
theorem readWord_eq_some_bytes {s : State} {off : Nat} {w : Word} (h : readWord s off = some w) :
    ∃ b0 b1 b2 b3, readByte s off = some b0 ∧ readByte s (off + 1) = some b1 ∧ readByte s (off + 2) = some b2 ∧
      readByte s (off + 3) = some b3 ∧ w = composeWord b0 b1 b2 b3 := by
  unfold readWord at h
  split at h
  · next b0 b1 b2 b3 h0 h1 h2 h3 => exact ⟨b0, b1, b2, b3, h0, h1, h2, h3, (Option.some.inj h).symm⟩
  · cases h

/-! ### What the decoder answers -/

theorem instr_wf (i : Instr) : i.wf = true := List.contains_iff_mem.mpr i.mem_all

/-- If the decoder reads an operation, it has read the first byte, and every byte after it is left (R81). -/
theorem decode_eq_ok {bytes rest : List Byte} {i : Instr} (h : decode bytes = .ok (i, rest)) :
    ∃ code, bytes = code :: rest ∧ decodeCode code = some i := by
  cases bytes with
  | nil => cases h
  | cons code more =>
    cases hd : decodeCode code with
    | none => rw [decode_cons_of_none hd] at h; cases h
    | some j => rw [decode_cons_of_some hd] at h; cases h; exact ⟨code, rfl, hd⟩

theorem decodeCode_of_decode {code : Byte} {rest : List Byte} {i : Instr} (h : decode [code] = .ok (i, rest)) :
    decodeCode code = some i := by
  obtain ⟨c, hc, hd⟩ := decode_eq_ok h
  cases hc
  exact hd

/-- A table word that spells no operation is handed to the block as a reserved code (notes/assumptions/18.md). -/
theorem decodeCode_of_decodeTableWord_none {nbits w : Nat} (h : decodeTableWord nbits w = none) :
    decodeCode ((tableCode nbits w).getD 0xFF#8) = none := by
  unfold decodeTableWord at h
  cases ht : tableCode nbits w with
  | none => rfl
  | some code =>
    cases hd : decodeCode code with
    | none => exact hd
    | some i => simp [ht, decode_cons_of_some hd] at h

theorem withFetchWord_of_some {nbits w : Nat} {i : Instr} (h : decodeTableWord nbits w = some i) (s : State) :
    s.withFetchWord nbits w = selectOperation i s := by
  simp [State.withFetchWord, h, placeCode]

theorem withFetchWord_of_none {nbits w : Nat} (h : decodeTableWord nbits w = none) (s : State) :
    s.withFetchWord nbits w = s.setRequests [.issue ((tableCode nbits w).getD 0xFF#8)] := by
  simp [State.withFetchWord, h, placeCode]

/-! ### What a step does with a pending code, and without one -/

/-- A pending code that spells an operation is taken where `upc` is at that operation, and refused elsewhere
(notes/assumptions/17.md). -/
theorem step_of_issue {s : State} {code : Byte} {rs : List HostRequest} {i : Instr}
    (hr : s.requests = .issue code :: rs) (hd : decodeCode code = some i) :
    step s = if s.upc = .op i then exec i (s.setRequests rs) else .refused .notARun :=
  (step_of_request hr).trans (issueCode_of_decodeCode hd _)

theorem step_of_issue_reserved {s : State} {code : Byte} {rs : List HostRequest} (hr : s.requests = .issue code :: rs)
    (hd : decodeCode code = none) : step s = .refused .reservedOpcode :=
  (step_of_request hr).trans (issueCode_of_reserved hd _)

theorem sequencerStep_of_op {s : State} {i : Instr} (hu : s.upc = .op i) : sequencerStep s = exec i s := by
  simp [sequencerStep, hu]

theorem sequencerStep_of_resting {s : State} (hb : s.upc.busy = false) : sequencerStep s = .fault .noStep := by
  unfold sequencerStep
  split
  · next hu => rw [hu] at hb; cases hb
  · rfl
  · rfl

/-! ### The statements -/

/-- Settles O30: a bit below `32 - r` moves up by `r`, and a bit above it comes back in from below. -/
theorem rotationMovesEveryBit : Obligations.RotationMovesEveryBit := by
  refine ⟨fun x r k hr hk => ?_, fun x => ?_⟩
  · rw [rotl_eq_rotateLeftAux]
    rcases Nat.lt_or_ge (k + r) 32 with below | above
    · rw [Nat.mod_eq_of_lt below, BitVec.getLsbD_rotateLeftAux_of_ge (by omega), Nat.add_sub_cancel]
      simp [below]
    · have wrapped : (k + r) % 32 = k + r - 32 := by omega
      have source : 32 - r + (k + r - 32) = k := by omega
      rw [wrapped, BitVec.getLsbD_rotateLeftAux_of_lt (by omega), source]
  · rw [rotl, BitVec.shiftLeft_zero, BitVec.ushiftRight_eq_zero (by decide), BitVec.or_zero]

/-- Settles O31: a word read answers the composition of its four bytes. -/
theorem wordReadIsLittleEndian : Obligations.WordReadIsLittleEndian := by
  intro s off w h
  obtain ⟨b0, b1, b2, b3, read0, read1, read2, read3, rfl⟩ := readWord_eq_some_bytes h
  obtain ⟨byte0, byte1, byte2, byte3⟩ := extractLsb'_composeWord b0 b1 b2 b3
  rw [byte0, byte1, byte2, byte3]
  exact ⟨read0, read1, read2, read3⟩

/-- Settles O2: the decoder reads one byte, and reads an operation from that operation's code only. -/
theorem decodeAndEncodeAgree : Obligations.DecodeAndEncodeAgree := by
  refine ⟨fun i rest _ => decode_cons_of_some (decodeCode_encodeCode i) rest, fun bytes i rest h => ⟨instr_wf i, ?_⟩⟩
  obtain ⟨code, rfl, hd⟩ := decode_eq_ok h
  rw [← encodeCode_of_decodeCode hd]
  rfl

/-- Settles O57: the block compares the operation a code spells with `upc`. -/
theorem codesOutOfPlaceAreRefused : Obligations.CodesOutOfPlaceAreRefused := by
  intro s code rs i hr hd hu
  rw [step_of_issue hr (decodeCode_of_decode hd), if_neg hu]

/-- Settles O5: `upc` names the operation of a step, and a table word or a code is taken only as that operation. -/
theorem stepRunsTheSelectedOperation : Obligations.StepRunsTheSelectedOperation := by
  refine ⟨fun s i hr hu => ?_, fun s nbits w i hw => ?_, fun s nbits w hw => ?_, fun s code rs i hr hd hu => ?_⟩
  · rw [step_of_no_request hr, sequencerStep_of_op hu]
  · rw [withFetchWord_of_some hw]
    exact ⟨rfl, (step_of_no_request rfl).trans (sequencerStep_of_op rfl)⟩
  · rw [withFetchWord_of_none hw]
    exact step_of_issue_reserved rfl (decodeCode_of_decodeTableWord_none hw)
  · exact (step_of_issue hr (decodeCode_of_decode hd)).trans (if_pos hu)

/-- Settles O6: the sequencer steps only at an operation. -/
theorem restingBlockHasNoStep : Obligations.RestingBlockHasNoStep := by
  intro s hr hu
  have resting : s.upc.busy = false := by rcases hu with hu | hu <;> rw [hu] <;> rfl
  rw [step_of_no_request hr, sequencerStep_of_resting resting]

end Sys2Proof.Machine
end

section
/-! Proofs of the statements on the host's side of the block (spec/10_state.md, spec/20_memory.md,
spec/60_exceptions.md, spec/70_reset_and_hazards.md). First the rules they share: what each register write and read
answers at rest and while busy, and that the input built from a byte list reads back as the list. -/

namespace Sys2Proof.Machine

/-! ### A step that serves a request -/

section Requests
variable {s : State} {rs : List HostRequest}

theorem step_of_write {r : HostReg} {v : Nat} (h : s.requests = .write r v :: rs) :
    step s = hostWrite r v (s.setRequests rs) := step_of_request h

theorem step_of_read {r : HostReg} (h : s.requests = .read r :: rs) : step s = hostRead r (s.setRequests rs) :=
  step_of_request h

theorem step_of_supply {bytes : List Byte} (h : s.requests = .supply bytes :: rs) :
    step s = supplyInput bytes (s.setRequests rs) := step_of_request h

end Requests

theorem stepsTo_two {s u t : State} (first : step s = .next u) (second : step u = .next t) : stepsTo 2 s t :=
  ⟨u, first, t, second, rfl⟩

theorem busy_setRequests_of_op {s : State} {i : Instr} (hu : s.upc = .op i) (rs : List HostRequest) :
    (s.setRequests rs).upc.busy = true := by
  rw [State.setRequests_upc, hu]
  rfl

/-! ### Writes at rest and while busy -/

theorem whenResting_of_resting {s : State} (hb : s.upc.busy = false) (k : Outcome) : whenResting s k = k := by
  simp [whenResting, hb]

/-- While busy the host can write none of the three writable registers (R36). -/
theorem hostWrite_of_busy {r : HostReg} {s : State} (hr : r ∈ [HostReg.len, .base, .ctrl]) (hb : s.upc.busy = true)
    (v : Nat) : hostWrite r v s = .refused .writeWhileBusy := by
  cases r
  case status | digest => exact absurd hr (by decide)
  all_goals exact if_pos hb

section Resting
variable {s : State} {rs : List HostRequest} (hb : s.upc.busy = false)
include hb

theorem step_of_write_len {v : Nat} (h : s.requests = .write .len v :: rs) :
    step s = .next ((s.setRequests rs).setLen (BitVec.ofNat 32 v)) :=
  (step_of_write h).trans (whenResting_of_resting (s := s.setRequests rs) hb _)

/-- A value that fits `BASE` is the value it takes (R32). -/
theorem step_of_write_base {v : Nat} (hv : v < 2 ^ Config.xaddr) (h : s.requests = .write .base v :: rs) :
    step s = .next ((s.setRequests rs).setBase v) := by
  have taken := (step_of_write h).trans (whenResting_of_resting (s := s.setRequests rs) hb _)
  rwa [Nat.mod_eq_of_lt hv] at taken

theorem step_of_write_ctrl {v : Nat} (h : s.requests = .write .ctrl v :: rs) :
    step s = writeCtrl (BitVec.ofNat 32 v) (s.setRequests rs) :=
  (step_of_write h).trans (whenResting_of_resting (s := s.setRequests rs) hb _)

theorem step_of_supply_at_rest {bytes : List Byte} (h : s.requests = .supply bytes :: rs) :
    step s = .next ((s.setRequests rs).setMem (Memory.ofBytes bytes)) := by
  rw [step_of_supply h, supplyInput, State.setRequests_upc, hb]
  rfl

end Resting

theorem writeCtrl_start (s : State) : writeCtrl 1#32 s = .next ((s.setDigest none).setUpc (.op .init)) := by
  simp [writeCtrl]

theorem writeCtrl_zero (s : State) : writeCtrl 0#32 s = .next s := by
  simp [writeCtrl]

/-- A value of at least 2 has one of bits 31:1 set (R33). -/
theorem writeCtrl_reserved {v : Word} (hv : 2 ≤ v.toNat) (s : State) : writeCtrl v s = .refused .reservedCtrlBits := by
  refine if_pos fun hz => ?_
  have high : v.toNat / 2 = 0 := by simpa [Nat.shiftRight_eq_div_pow] using congrArg BitVec.toNat hz
  omega

/-! ### Reads -/

theorem hostRead_len_of_held {s : State} (h : s.lenHeld = true) : hostRead .len s = .next (s.setReply s.len.toNat) := by
  simp [hostRead, h]

theorem hostRead_base_of_held {s : State} (h : s.baseHeld = true) : hostRead .base s = .next (s.setReply s.base) := by
  simp [hostRead, h]

/-- A request other than reset and a code, served while busy, changes at most the reply (R36, R221). -/
theorem serve_next_of_busy {r : HostRequest} {s t : State} (hb : s.upc.busy = true) (hreset : r ≠ .reset)
    (hissue : ∀ code, r ≠ .issue code) (h : serve r s = .next t) : t = { s with reply := t.reply } := by
  cases r with
  | write reg v =>
    obtain ⟨resting, -⟩ := hostWrite_next h
    rw [hb] at resting
    cases resting
  | read reg =>
    obtain ⟨v, rfl⟩ := hostRead_next h
    rfl
  | supply bytes =>
    obtain ⟨resting, -⟩ := supplyInput_next h
    rw [hb] at resting
    cases resting
  | reset => exact absurd rfl hreset
  | issue code => exact absurd rfl (hissue code)

/-! ### The input put in place -/

theorem supplyInput_of_busy {s : State} (hb : s.upc.busy = true) (bytes : List Byte) :
    supplyInput bytes s = .refused .inputFixedDuringRun := by
  simp [supplyInput, hb]

/-- No cell is listed below the offset of the first byte. -/
theorem lookupCell_cellsFrom_of_lt {bytes : List Byte} {lo off : Nat} (h : off < lo) :
    lookupCell off (cellsFrom lo bytes) = 0#8 := by
  induction bytes generalizing lo with
  | nil => rfl
  | cons v rest ih =>
    rw [cellsFrom]
    split
    · exact ih (by omega)
    · rw [lookupCell, if_neg (by omega), ih (by omega)]

/-- The cells of a byte list read as its bytes: a byte that is left out is zero (notes/assumptions/4.md). -/
theorem lookupCell_cellsFrom (bytes : List Byte) (lo k : Nat) :
    lookupCell (lo + k) (cellsFrom lo bytes) = bytes.getD k 0#8 := by
  induction bytes generalizing lo k with
  | nil => rfl
  | cons v rest ih =>
    rw [cellsFrom]
    cases k with
    | zero =>
      split
      · next hv => rw [lookupCell_cellsFrom_of_lt (by omega), hv]; rfl
      · exact if_pos rfl
    | succ k =>
      have shifted : lo + (k + 1) = lo + 1 + k := by omega
      rw [List.getD_cons_succ, ← ih (lo + 1) k, shifted]
      split
      · rfl
      · rw [lookupCell, if_neg (by omega)]

theorem byteAt_ofBytes (bytes : List Byte) (off : Nat) : (Memory.ofBytes bytes).byteAt off = bytes[off]? := by
  have cell : lookupCell off (cellsFrom 0 bytes) = bytes.getD off 0#8 := by
    simpa using lookupCell_cellsFrom bytes 0 off
  rcases Nat.lt_or_ge off bytes.length with inside | outside
  · simp [Memory.byteAt, Memory.ofBytes, cell, inside]
  · simp [Memory.byteAt, Memory.ofBytes, Nat.not_lt.mpr outside]

/-! ### The statements -/

/-- Settles O48: at rest the value of the write decides, while busy the write is refused before its value is looked
at. -/
theorem startBeginsARun : Obligations.StartBeginsARun := by
  refine ⟨fun s rs hb hr => ?_, fun s rs hb hr => ?_, fun s rs v hb hv hlt hr => ?_, fun s rs hr => step_of_read hr,
    fun s i rs v hu hr => ?_⟩
  · exact (step_of_write_ctrl hb hr).trans (writeCtrl_start _)
  · exact (step_of_write_ctrl hb hr).trans (writeCtrl_zero _)
  · have fits : (BitVec.ofNat 32 v).toNat = v := Nat.mod_eq_of_lt hlt
    rw [step_of_write_ctrl hb hr, writeCtrl_reserved (fits.symm ▸ hv)]
  · rw [step_of_write hr, hostWrite_of_busy (by decide) (busy_setRequests_of_op hu rs)]

/-- Settles O49: the busy check stands before every write, and no read but that of `STATUS` looks at `upc`. -/
theorem writesWhileBusyAreRefused : Obligations.WritesWhileBusyAreRefused := by
  refine ⟨fun s i r v rs hu hreg hr => ?_, fun s i rs hu hr => ?_, fun s i rs _ hl hr => ?_, fun s i rs _ hb hr => ?_⟩
  · rw [step_of_write hr, hostWrite_of_busy hreg (busy_setRequests_of_op hu rs)]
  · obtain ⟨-, status, -⟩ := statusIsAFunctionOfUpc.1 s rs hr
    exact status i hu
  · exact (step_of_read hr).trans (hostRead_len_of_held hl)
  · exact (step_of_read hr).trans (hostRead_base_of_held hb)

/-- Settles O50: what the host can do while busy is to read; at rest `upc` names no operation. -/
theorem hostMovesNeverDisturbARun : Obligations.HostMovesNeverDisturbARun := by
  refine ⟨fun s t i r rs hu hr hreset hissue h => ?_, fun s => sequencerStep_of_resting⟩
  rw [step_of_request hr] at h
  exact serve_next_of_busy (busy_setRequests_of_op hu rs) hreset hissue h

/-- Settles O52: a value that fits the register is the value it holds. -/
theorem lengthAndBaseReadBack : Obligations.LengthAndBaseReadBack := by
  refine ⟨fun s rs v hb hv hr => ?_, fun s rs v hb hv hr => ?_⟩
  · refine stepsTo_two (step_of_write_len hb hr) ((step_of_read rfl).trans ((hostRead_len_of_held rfl).trans ?_))
    rw [State.setRequests_len, State.setLen_len, BitVec.toNat_ofNat, Nat.mod_eq_of_lt hv]
    rfl
  · exact stepsTo_two (step_of_write_base hb hv hr) ((step_of_read rfl).trans (hostRead_base_of_held rfl))

/-- Settles O55: reset overwrites every register of the block and leaves the input and the other requests. -/
theorem resetReturnsToIdle : Obligations.ResetReturnsToIdle :=
  ⟨⟨rfl, statusWord_idle, rfl, rfl, rfl, rfl, rfl⟩, fun _ _ hr => step_of_reset hr,
    fun _ _ hr => stepsTo_two (step_of_reset hr) ((step_of_read rfl).trans rfl)⟩

/-- Settles O56: the input built from the bytes has as many readable offsets as there are bytes, and reads as them. -/
theorem suppliedInputReadsBack : Obligations.SuppliedInputReadsBack := by
  refine ⟨fun s bytes rs hb hr => ?_, fun s bytes rs i hu hr => ?_⟩
  · exact ⟨Memory.ofBytes bytes, step_of_supply_at_rest hb hr, rfl,
      Memory.ofBytes_wf bytes, byteAt_ofBytes bytes⟩
  · rw [step_of_supply hr, supplyInput_of_busy (busy_setRequests_of_op hu rs)]

/-- Settles O60: the two read-only registers have no write. -/
theorem writesToReadOnlyRegistersAreRefused : Obligations.WritesToReadOnlyRegistersAreRefused := by
  intro s r v rs hreg hr
  rw [step_of_write hr]
  rcases hreg with rfl | rfl <;> rfl

end Sys2Proof.Machine
end
